-- ==== Sys2Proof/Word.lean ====
section
/-! DEFINITION. The words of the core: nibbles, bytes, 12-bit command and response words, the 64-nibble state.
Bit 0 is the least significant bit of each (R50). -/

namespace Sys2Proof

/-- A nibble, 0..15, exactly 4 bits wide (R21). -/
abbrev Nib := BitVec 4

/-- A byte of a message or of a digest. -/
abbrev Byte := BitVec 8

/-- A command word `cmd[11:0]` (R60). -/
abbrev Command := BitVec 12

/-- A response word `rsp[11:0]` (R64). -/
abbrev Response := BitVec 12

/-- The state array `S[0..63]` (R20). -/
abbrev NibState := Vector Nib 64

/-- One block of 32 nibbles, as much as the rate takes (R22). -/
abbrev Block := Vector Nib 32

end Sys2Proof
end

