-- ==== Sys2Proof/Config.lean ====
section
/-! DEFINITION. The parameters of the core: every size is fixed (R4), and one parameter is open, `T_CMD` (R5, R208). -/

namespace Sys2Proof

/-- `RATE`: nibbles absorbed a block (R4). -/
def Config.rate : Nat := 32

/-- `ROUNDS`: rounds of a Permutation (R4). -/
def Config.rounds : Nat := 16

/-- `DIGEST_BYTES`: bytes of a digest (R4). -/
def Config.digestBytes : Nat := 32

/-- `T_CMD`, the delay from accepting the n-th command to its response: open, and read by no rule (R5, R208).
DESIGN CHOICE, log entry 13: the model has no time and reads it nowhere. -/
opaque Config.tCmd : Nat → Nat

end Sys2Proof
end

