-- ==== Sys2Proof/Syntax.lean ====
section
/-! DEFINITION. The operations of the core, one constructor a row of spec/opcode_table.json. -/

namespace Sys2Proof

/-- The 23 rows of the opcode table, in the table's order: the host's commands and the class of illegal words, the
sequencer's four steps, the functions that have no encoding, and the pseudo-commands of a script. -/
inductive Instr where
  /-- START (R151). -/
  | start
  /-- ABSORB, one message byte (R152). -/
  | absorb (d : Byte)
  /-- FINAL (R153). -/
  | final
  /-- SQUEEZE, the index of a digest byte (R154). -/
  | squeeze (i : BitVec 5)
  /-- STATUS (R155). -/
  | status
  /-- ILLEGAL: a word that is none of the five commands (R63), kept as it came. -/
  | illegal (w : Command)
  /-- SUBNIBBLES, sequencer stage 0 (R66, R100). -/
  | subNibbles
  /-- PERMUTENIBBLES, sequencer stage 1 (R66, R101). -/
  | permuteNibbles
  /-- MIXCOLUMNS, sequencer stage 2 (R66, R102). -/
  | mixColumns
  /-- ADDCONSTANT, sequencer stage 3 (R66, R104); the round index is the register `rnd`. -/
  | addConstant
  /-- ADD16 of two nibbles (R80). -/
  | add16 (a b : Nib)
  /-- ROUND with round index `r` (R105). -/
  | round (r : BitVec 4)
  /-- PERMUTATION, the 16 rounds (R106). -/
  | permutation
  /-- ENCODE_BYTE (R120). -/
  | encodeByte (b : Byte)
  /-- ENCODE_MESSAGE (R121). -/
  | encodeMessage (m : List Byte)
  /-- PAD (R122). -/
  | pad (m : List Byte)
  /-- PAD_IN_PLACE at position `pos` (R127). -/
  | padInPlace (pos : BitVec 5)
  /-- DECODE_BYTE, the index of a digest byte (R125). -/
  | decodeByte (i : BitVec 5)
  /-- ABSORB_BLOCK (R141). -/
  | absorbBlock (p : Block)
  /-- HASH, the one-shot function (R140). -/
  | hash (m : List Byte)
  /-- HASH_SCRIPT: the pseudo-command HASH of a script (R69). -/
  | hashScript (m : List Byte)
  /-- DIGEST: the pseudo-command that reads all 32 digest bytes (R69). -/
  | digest
  /-- RESET: the reset event (R69, R200). -/
  | reset
  deriving DecidableEq, Repr

end Sys2Proof
end

