-- ==== Sys2Proof/WellFormed.lean ====
section
/-! DEFINITION. Which terms of Instr are operations of the core: an ILLEGAL row holds a word that is no command (R63),
and the padding engine is given an even position (R127). Every other operand is in range by its width (R40). -/

namespace Sys2Proof

/-- A word is one of the five commands (R63): START, FINAL and STATUS with `arg = 0`, ABSORB with any `arg`,
SQUEEZE with `arg[7:5] = 0`, which is `arg < 32`. -/
def legalWord (w : Command) : Bool :=
  let op := w.toNat / 256
  let arg := w.toNat % 256
  (op == 1 && arg == 0) || op == 2 || (op == 3 && arg == 0) || (op == 4 && decide (arg < 32)) || (op == 5 && arg == 0)

/-- The check on an instruction as a term. -/
def Instr.wf : Instr → Bool
  | .illegal w => !(legalWord w)
  | .padInPlace pos => pos.toNat % 2 == 0
  | .start => true
  | .absorb _ => true
  | .final => true
  | .squeeze _ => true
  | .status => true
  | .subNibbles => true
  | .permuteNibbles => true
  | .mixColumns => true
  | .addConstant => true
  | .add16 _ _ => true
  | .round _ => true
  | .permutation => true
  | .encodeByte _ => true
  | .encodeMessage _ => true
  | .pad _ => true
  | .decodeByte _ => true
  | .absorbBlock _ => true
  | .hash _ => true
  | .hashScript _ => true
  | .digest => true
  | .reset => true

end Sys2Proof
end

