-- ==== Sys2Proof/Decode.lean ====
section
/-! DEFINITION. Decoding: the 12-bit command word (R60 to R63, R67) and the sequencer's 2-bit stage select (R66), and
after it the encoder (R67). -/

namespace Sys2Proof

/-- `op = cmd[11:8]` (R60). -/
def opField (w : Command) : BitVec 4 := w.extractLsb' 8 4

/-- `arg = cmd[7:0]` (R60). -/
def argField (w : Command) : Byte := w.extractLsb' 0 8

/-- `decode` of R67, total on the 4096 words; a word of no row is ILLEGAL. -/
def decodeCommand (w : Command) : Instr :=
  let op := opField w
  let arg := argField w
  if op = 0x1#4 ∧ arg = 0x00#8 then .start
  else if op = 0x2#4 then .absorb arg
  else if op = 0x3#4 ∧ arg = 0x00#8 then .final
  else if op = 0x4#4 ∧ arg.extractLsb' 5 3 = 0#3 then .squeeze (arg.extractLsb' 0 5)
  else if op = 0x5#4 ∧ arg = 0x00#8 then .status
  else .illegal w

/-- The layer a stage code selects (R66). -/
def decodeStage (v : BitVec 2) : Instr :=
  if v = 0#2 then .subNibbles
  else if v = 1#2 then .permuteNibbles
  else if v = 2#2 then .mixColumns
  else .addConstant

/-- The two things of the core that select an operation: the command word of the host and the stage select of the
sequencer. They are different wires, so the same bits mean different things on them. -/
inductive Code where
  /-- A word on the command port (R60). -/
  | command (w : Command)
  /-- The register `stage` (R66). -/
  | stage (v : BitVec 2)
  deriving DecidableEq, Repr

/-- Decoding, total on both. -/
def decode : Code → Instr
  | .command w => decodeCommand w
  | .stage v => decodeStage v

/-- One row of the opcode map of R61. -/
structure OpcodeRow where
  mnemonic : String
  matchBits : Command
  mask : Command
  deriving DecidableEq, Repr

/-- The opcode map of R61. -/
def opcodeMap : List OpcodeRow :=
  [⟨"START", 0x100, 0xFFF⟩, ⟨"ABSORB", 0x200, 0xF00⟩, ⟨"FINAL", 0x300, 0xFFF⟩, ⟨"SQUEEZE", 0x400, 0xFE0⟩,
   ⟨"STATUS", 0x500, 0xFFF⟩]

/-- A word is the command of a row exactly when `(w & mask) = match` (R61). -/
def OpcodeRow.has (r : OpcodeRow) (w : Command) : Bool := (w &&& r.mask) == r.matchBits

/-- The encoder (R67 for the commands, R66 for the layers). A function row and a pseudo-command have no encoding. -/
def encode : Instr → Option Code
  | .start => some (.command 0x100)
  | .absorb d => some (.command (0x200 + d.setWidth 12))
  | .final => some (.command 0x300)
  | .squeeze i => some (.command (0x400 + i.setWidth 12))
  | .status => some (.command 0x500)
  | .illegal w => some (.command w)
  | .subNibbles => some (.stage 0)
  | .permuteNibbles => some (.stage 1)
  | .mixColumns => some (.stage 2)
  | .addConstant => some (.stage 3)
  | .add16 _ _ => none
  | .round _ => none
  | .permutation => none
  | .encodeByte _ => none
  | .encodeMessage _ => none
  | .pad _ => none
  | .padInPlace _ => none
  | .decodeByte _ => none
  | .absorbBlock _ => none
  | .hash _ => none
  | .hashScript _ => none
  | .digest => none
  | .reset => none

/-- The code in `nbits` bits (DESIGN CHOICE, log entry 15): a row of one byte is the 2-bit stage select, a longer one
the 12-bit command word; a row of no bits has no code, and bits above the code's width must be zero. -/
def tableCode (nbits w : Nat) : Option Code :=
  if nbits = 0 then none
  else if nbits ≤ 8 then
    if w < 4 then some (.stage (BitVec.ofNat 2 w)) else none
  else
    if w < 4096 then some (.command (BitVec.ofNat 12 w)) else none

/-- What the decoder reads from a row's bits `w`, numbered as spec/opcode_table.json numbers them. -/
def decodeTableWord (nbits w : Nat) : Option Instr := (tableCode nbits w).map decode

end Sys2Proof
end

