-- ==== Sys2Proof/Machine/State.lean ====
section
/-! DEFINITION. The state of the core (R8, R20 to R28), with the host's side of its ports, and its value after reset
(R32). -/

namespace Sys2Proof.Machine

/-- The four phases of the controller (R25); their 2-bit codes are `Phase.code`. -/
inductive Phase where
  /-- After reset, no hash begun. -/
  | idle
  /-- A message is being taken. -/
  | absorb
  /-- The digest is in `S` and may be read. -/
  | done
  /-- A protocol fault happened; only reset leaves it. -/
  | fault
  deriving DecidableEq, Repr

/-- The values of the register `fcode` (R26, R181); their 4-bit codes are `FaultCode.code`. The codes 5..15 never occur,
and the type has none for them (log entry 10). -/
inductive FaultCode where
  /-- 0: no fault since reset. -/
  | none
  /-- 1: ILLEGAL_CMD. -/
  | illegalCmd
  /-- 2: SEQ_ABSORB. -/
  | seqAbsorb
  /-- 3: SEQ_FINAL. -/
  | seqFinal
  /-- 4: SEQ_SQUEEZE. -/
  | seqSqueeze
  deriving DecidableEq, Repr

/-- Which of the spec's two machines the core is (log entry 1). -/
inductive Level where
  /-- The command-level machine: a Permutation is part of one atomic command (R150 to R158). -/
  | command
  /-- The refined machine: one layer a step (R159 to R162). -/
  | micro
  deriving DecidableEq, Repr

/-- One act of the host at the core's ports (R192; log entries 2, 8 and 14). -/
inductive HostEvent where
  /-- Give a command word and hold it until the core accepts it (R205). -/
  | word (w : Command)
  /-- The pseudo-command HASH of a script (R69). -/
  | hash (m : List Byte)
  /-- The pseudo-command DIGEST of a script (R69). -/
  | digest
  /-- The pseudo-command RESET of a script (R69): the reset event, when the core has answered the command before it. -/
  | reset
  /-- The reset event at once (R200), whatever the core is doing. -/
  | resetNow
  /-- Give nothing for one step. -/
  | wait
  deriving DecidableEq, Repr

/-- The result of a function row of the opcode table that yields a value (log entry 4). -/
inductive FnValue where
  /-- No function has answered yet. -/
  | none
  /-- A nibble. -/
  | nibble (v : Nib)
  /-- A sequence of nibbles, first one first. -/
  | nibbles (vs : List Nib)
  /-- A byte. -/
  | byte (b : Byte)
  /-- A sequence of bytes, first one first. -/
  | bytes (bs : List Byte)
  deriving DecidableEq, Repr

end Sys2Proof.Machine

namespace Sys2Proof.Machine

/-- The core's registers, and the host's side of the ports. -/
structure State where
  /-- The 64 nibbles (R20). -/
  S : NibState
  /-- The rate index of the next absorbed nibble (R24). -/
  pos : BitVec 5
  /-- The controller's phase (R25). -/
  phase : Phase
  /-- The first fault since reset (R26). -/
  fcode : FaultCode
  /-- The sequencer is running a Permutation (R28, R159). -/
  busy : Bool
  /-- The round index (R28, R66). -/
  rnd : BitVec 4
  /-- The layer that is next (R28, R66). -/
  stage : BitVec 2
  /-- FINAL started the running Permutation (R28, R159). -/
  fin : Bool
  /-- The machine the core is; no step changes it (the model's own, log entry 1). -/
  level : Level
  /-- What the host does next, first act first (the model's own, log entry 2). -/
  host : List HostEvent
  /-- The responses given so far, oldest first (the model's own, log entry 3). -/
  rsps : List Response
  /-- The value the last value-yielding function row left (the model's own, log entry 4). -/
  value : FnValue
  deriving DecidableEq, Repr

/-- Right after reset (R32). The last four fields are the model's own (log entries 1 to 4). -/
def State.reset : State where
  S := Vector.replicate 64 0#4
  pos := 0#5
  phase := .idle
  fcode := .none
  busy := false
  rnd := 0#4
  stage := 0#2
  fin := false
  level := .command
  host := []
  rsps := []
  value := .none

/-- Reasons to stop with a fault: NONE. The spec's four protocol faults are entered as states (R182), and no operation
of the hash can fail (R180), so nothing raises one (log entry 21). -/
inductive Fault where
  deriving DecidableEq, Repr

/-- Reasons to refuse an instruction. -/
inductive Refusal where
  /-- An instruction without a meaning in the model, by its mnemonic: raised by no arm now (safe: the model stops). -/
  | notModelled (mnemonic : String)
  deriving DecidableEq, Repr

/-- How a meaning answers. -/
abbrev Result := Host.Outcome State Fault Refusal

end Sys2Proof.Machine
end

