-- ==== Sys2Proof/Machine/Flags.lean ====
section
/-! DEFINITION. The core has no arithmetic flag (R31); what stands for one: the codes of `phase` and `fcode`, the STATUS
byte (R27) and the response word (R64, R65). -/

namespace Sys2Proof.Machine

/-- The 2-bit code of a phase (R25). -/
def Phase.code : Phase → BitVec 2
  | .idle => 0#2
  | .absorb => 1#2
  | .done => 2#2
  | .fault => 3#2

/-- The 4-bit code of a fault, in `fcode` and in a response's `st` (R26, R65). -/
def FaultCode.code : FaultCode → BitVec 4
  | .none => 0#4
  | .illegalCmd => 1#4
  | .seqAbsorb => 2#4
  | .seqFinal => 3#4
  | .seqSqueeze => 4#4

/-- STATUS = `{fcode[3:0], 0b00, phase[1:0]}` (R27). -/
def State.statusByte (s : State) : Byte := s.fcode.code ++ 0#2 ++ s.phase.code

/-- The response word `{st[3:0], data[7:0]}` (R64). -/
def responseWord (st : BitVec 4) (data : Byte) : Response := st ++ data

/-- `st = rsp[11:8]` (R64). -/
def statusCode (r : Response) : BitVec 4 := r.extractLsb' 8 4

/-- `data = rsp[7:0]` (R64). -/
def dataByte (r : Response) : Byte := r.extractLsb' 0 8

end Sys2Proof.Machine
end

