-- ==== Sys2Proof/Machine/Tables.lean ====
section
/-! DEFINITION. add16 (R80, R81) and the constant tables (R82 to R89), literals as the hardware holds them (R88). -/

namespace Sys2Proof.Machine

/-- `add16(a, b) = (a + b) mod 16`, the carry dropped (R80): addition on 4 bits. -/
def add16 (a b : Nib) : Nib := a + b

/-- The conditional-subtraction form of `add16` (R81). -/
def add16Subtract (a b : Nib) : Nib :=
  let t := a.toNat + b.toNat
  BitVec.ofNat 4 (if t ≥ 16 then t - 16 else t)

/-- The low 4 bits of the 5-bit sum (R81). -/
def add16LowBits (a b : Nib) : Nib := (a.setWidth 5 + b.setWidth 5).extractLsb' 0 4

/-- SBOX (R82). -/
def sboxTable : Vector Nib 16 :=
  #v[0xC, 0x5, 0x6, 0xB, 0x9, 0x0, 0xA, 0xD, 0x3, 0xE, 0xF, 0x8, 0x4, 0x7, 0x1, 0x2]

/-- `SBOX[v]` (R82). -/
def sbox (v : Nib) : Nib := sboxTable[v.toNat]

/-- INV_SBOX (R89); no operation of the core uses it. -/
def invSboxTable : Vector Nib 16 :=
  #v[0x5, 0xE, 0xF, 0x8, 0xC, 0x1, 0x2, 0xD, 0xB, 0x4, 0x6, 0x3, 0x0, 0x7, 0x9, 0xA]

/-- `INV_SBOX[v]` (R89). -/
def invSbox (v : Nib) : Nib := invSboxTable[v.toNat]

/-- RC (R83). -/
def rcTable : Vector Nib 16 :=
  #v[0x1, 0x8, 0xC, 0xE, 0xF, 0x7, 0xB, 0x5, 0xA, 0xD, 0x6, 0x3, 0x9, 0x4, 0x2, 0x1]

/-- `RC[r]` (R83). -/
def rc (r : BitVec 4) : Nib := rcTable[r.toNat]

/-- The generator of R84: `s_0 = 1`, `s_{k+1} = (s_k >> 1) | ((s_k[0] xor s_k[3]) << 3)`. It is informative: the literal
of `rcTable` binds. -/
def lfsr : Nat → Nib
  | 0 => 1#4
  | k + 1 =>
    let s := lfsr k
    (s >>> 1) ||| (((s.extractLsb' 0 1 ^^^ s.extractLsb' 3 1).setWidth 4) <<< 3)

/-- PERM (R86): `PERM[i]` is the destination of the nibble at `i`. -/
def permTable : Vector (Fin 64) 64 :=
  #v[ 0,  8, 16, 24, 32, 40, 48, 56,
     57,  1,  9, 17, 25, 33, 41, 49,
     50, 58,  2, 10, 18, 26, 34, 42,
     43, 51, 59,  3, 11, 19, 27, 35,
     36, 44, 52, 60,  4, 12, 20, 28,
     29, 37, 45, 53, 61,  5, 13, 21,
     22, 30, 38, 46, 54, 62,  6, 14,
     15, 23, 31, 39, 47, 55, 63,  7]

/-- `PERM[i]` (R86). -/
def perm (i : Fin 64) : Fin 64 := permTable[i.val]

/-- INV_PERM (R87); no operation of the core uses it. -/
def invPermTable : Vector (Fin 64) 64 :=
  #v[ 0,  9, 18, 27, 36, 45, 54, 63,
      1, 10, 19, 28, 37, 46, 55, 56,
      2, 11, 20, 29, 38, 47, 48, 57,
      3, 12, 21, 30, 39, 40, 49, 58,
      4, 13, 22, 31, 32, 41, 50, 59,
      5, 14, 23, 24, 33, 42, 51, 60,
      6, 15, 16, 25, 34, 43, 52, 61,
      7,  8, 17, 26, 35, 44, 53, 62]

/-- `INV_PERM[j]` (R87). -/
def invPerm (j : Fin 64) : Fin 64 := invPermTable[j.val]

end Sys2Proof.Machine
end

