-- ==== Sys2Proof/Machine/Layers.lean ====
section
/-! DEFINITION. The four layers (R100 to R104), the round (R105) and the 16-round Permutation (R106), each a function
from the old state to the new one, so that every read is of the state on entry (R103, R202, R203). -/

namespace Sys2Proof.Machine

/-- The all-zero state `[0]*64`. -/
def zeroState : NibState := Vector.replicate 64 0#4

/-- `S[i] <- add16(S[i], v)`. -/
def addAt (S : NibState) (i : Fin 64) (v : Nib) : NibState := S.set i.val (add16 S[i.val] v)

/-- SubNibbles (R100). -/
def subNibbles (S : NibState) : NibState := Vector.ofFn fun i : Fin 64 => sbox S[i.val]

/-- PermuteNibbles (R101): `T[PERM[i]] <- S[i]` for every `i`, `T` a fresh sequence. -/
def permuteNibbles (S : NibState) : NibState :=
  (List.finRange 64).foldl (fun T i => T.set (perm i).val S[i.val]) zeroState

/-- `prev[8*((r+k) mod 8) + c]`: the nibble `k` rows below index `i = 8r + c` in its column, wrapping (R102). -/
def below (prev : NibState) (i : Fin 64) (k : Nat) : Nib := prev[8 * ((i.val / 8 + k) % 8) + i.val % 8]

/-- MixColumns (R102, R103). -/
def mixColumns (prev : NibState) : NibState :=
  Vector.ofFn fun i : Fin 64 =>
    add16 (add16 (below prev i 0) (below prev i 1)) (add16 (below prev i 2) (below prev i 3))

/-- AddConstant (R104). -/
def addConstant (r : BitVec 4) (S : NibState) : NibState := addAt S 63 (rc r)

/-- Round: the four layers in their order (R105). -/
def oneRound (r : BitVec 4) (S : NibState) : NibState :=
  addConstant r (mixColumns (permuteNibbles (subNibbles S)))

/-- Permutation: the rounds 0 to 15 in order (R106). -/
def permutation (S : NibState) : NibState :=
  (List.range Config.rounds).foldl (fun T r => oneRound (BitVec.ofNat 4 r) T) S

/-- `PermutationN(S, N)`, the test idea of R110: the first `n` rounds. The core has no such driver. Past 16 rounds the
index wraps, which the spec does not speak of (log entry 23). -/
def permutationN : Nat → NibState → NibState
  | 0, S => S
  | n + 1, S => oneRound (BitVec.ofNat 4 n) (permutationN n S)

end Sys2Proof.Machine
end

