-- ==== Sys2Proof/Machine/Operands.lean ====
section
/-! DEFINITION. The operands of the commands: the encoder of message bytes (R120, R121), the decoder of digest bytes
(R125), high nibble first both ways (R41). -/

namespace Sys2Proof.Machine

/-- `hi(b) = b[7:4]` (R50). -/
def hiNibble (b : Byte) : Nib := b.extractLsb' 4 4

/-- `lo(b) = b[3:0]` (R50). -/
def loNibble (b : Byte) : Nib := b.extractLsb' 0 4

/-- EncodeByte: high nibble, then low nibble (R120). -/
def encodeByte (b : Byte) : List Nib := [hiNibble b, loNibble b]

/-- EncodeMessage (R121). -/
def encodeMessage : List Byte → List Nib
  | [] => []
  | b :: m => encodeByte b ++ encodeMessage m

/-- DecodeByte: `(S[2i] << 4) | S[2i+1]` (R125). -/
def decodeByte (S : NibState) (i : BitVec 5) : Byte :=
  (S[2 * i.toNat].setWidth 8 <<< 4) ||| S[2 * i.toNat + 1].setWidth 8

/-- DecodeDigest: the 32 bytes (R125). -/
def decodeDigest (S : NibState) : List Byte :=
  (List.range Config.digestBytes).map fun i => decodeByte S (BitVec.ofNat 5 i)

end Sys2Proof.Machine
end

