-- ==== Sys2Proof/Machine/Sponge.lean ====
section
/-! DEFINITION. Padding (R122, R127) and the hash as a function (R140, R141). -/

namespace Sys2Proof.Machine

/-- `z = (30 - 2L) mod 32`, the count of zero nibbles of the padding (R122). -/
def padZeros (len : Nat) : Nat := ((30 - 2 * (len : Int)) % 32).toNat

/-- Pad (R122). -/
def pad (m : List Byte) : List Nib :=
  encodeMessage m ++ [0x8#4] ++ List.replicate (padZeros m.length) 0x0#4 ++ [0x1#4]

/-- PadInPlace (R127): the two additions of the padding engine. -/
def padInPlace (S : NibState) (pos : BitVec 5) : NibState :=
  addAt (addAt S (pos.toFin.castLE (by decide)) 0x8#4) 31 0x1#4

/-- AbsorbBlock: `S[i] <- add16(S[i], P[i])` for `i` in 0..31 (R141). -/
def absorbBlock (S : NibState) (p : Block) : NibState :=
  Vector.ofFn fun i : Fin 64 => if h : i.val < 32 then add16 S[i.val] p[i.val] else S[i.val]

/-- `Q[32k .. 32k+31]` (R140). The default is never read where `32k + 31 < len(Q)`. -/
def blockAt (q : List Nib) (k : Nat) : Block := Vector.ofFn fun i : Fin 32 => q.getD (32 * k + i.val) 0#4

/-- The state of R140 after the first `b` blocks of `q`: a Permutation after every block. -/
def absorbBlocks (q : List Nib) (b : Nat) : NibState :=
  (List.range b).foldl (fun S k => permutation (absorbBlock S (blockAt q k))) zeroState

/-- The state that is decoded into the digest (R140): all `B` blocks of the padded stream absorbed. -/
def hashState (m : List Byte) : NibState := absorbBlocks (pad m) ((pad m).length / Config.rate)

/-- Hash (R140). -/
def hashMessage (m : List Byte) : List Byte := decodeDigest (hashState m)

end Sys2Proof.Machine
end

