-- ==== Sys2Proof/Machine/Ops.lean ====
section
/-! DEFINITION. The named operations every meaning is built from: answering, taking a protocol fault (R182), the reset
event (R200), closing a block (R152, R153, R159), and the sequencer's advance (R161). -/

namespace Sys2Proof.Machine

/-- `respond(st, data)`: the host takes the response word (R64). -/
def State.respond (s : State) (st : BitVec 4) (data : Byte) : State :=
  { s with rsps := s.rsps ++ [responseWord st data] }

/-- `raise Fault(code)` (R182): taking a protocol fault. There is no saved context and no handler; the way back is
`State.resetEvent`. -/
def State.raiseFault (s : State) (c : FaultCode) : State :=
  State.respond { s with fcode := c, phase := .fault } c.code 0x00#8

/-- The reset event (R200), the only way out of FAULT (R185): every register at its reset value. What is the host's, and
which machine the core is, stays (log entry 8). -/
def State.resetEvent (s : State) : State :=
  { State.reset with level := s.level, host := s.host, rsps := s.rsps, value := s.value }

/-- A host command at the port: not accepted while the sequencer runs (R159; log entry 7), refused with the stored code in
FAULT (R184), else served. -/
def State.serve (s : State) (command : State → State) : Result :=
  if s.busy then .next s
  else if s.phase = .fault then .next (s.respond s.fcode.code 0x00#8)
  else .next (command s)

/-- `Permutation(S)` at the end of a command and what follows it (R152, R153): on the command-level machine at once; on
the refined machine the sequencer is started and the rest waits (R159). -/
def State.closeBlock (s : State) (final : Bool) : State :=
  match s.level with
  | .command =>
    State.respond { s with S := permutation s.S, pos := 0#5, phase := if final then .done else s.phase } 0x0#4 0x00#8
  | .micro => { s with busy := true, rnd := 0#4, stage := 0#2, fin := final }

/-- The index of the rate nibble at `p` (R24): 0..31. -/
def rateIndex (p : BitVec 5) : Fin 64 := p.toFin.castLE (by decide)

/-- The sequencer's control flow after a layer (R161); nothing where the sequencer is not running (log entry 6). -/
def State.advance (s : State) : State :=
  if s.busy = false then s
  else if s.stage ≠ 3#2 then { s with stage := s.stage + 1#2 }
  else if s.rnd ≠ 15#4 then { s with rnd := s.rnd + 1#4, stage := 0#2 }
  else
    State.respond
      { s with busy := false, rnd := 0#4, stage := 0#2, pos := 0#5, phase := if s.fin then .done else s.phase, fin := false }
      0x0#4 0x00#8

end Sys2Proof.Machine
end

