-- ==== Sys2Proof/Machine/Commands.lean ====
section
/-! DEFINITION. The meanings of the host's commands (R150 to R155) and of an illegal word (R63). -/

namespace Sys2Proof.Machine

/-- START (R151). -/
def startCommand (s : State) : State :=
  State.respond { s with S := zeroState, pos := 0#5, phase := .absorb } 0x0#4 0x00#8

/-- START, at the port. -/
def execStart (s : State) : Result := s.serve startCommand

/-- ABSORB (R152). `pos + 1` is taken on 5 bits, so both writes stay in the rate (log entry 9). -/
def absorbCommand (d : Byte) (s : State) : State :=
  if s.phase ≠ .absorb then s.raiseFault .seqAbsorb
  else
    let t := { s with S := addAt (addAt s.S (rateIndex s.pos) (hiNibble d)) (rateIndex (s.pos + 1#5)) (loNibble d) }
    if s.pos = 30#5 then t.closeBlock false
    else State.respond { t with pos := s.pos + 2#5 } 0x0#4 0x00#8

/-- ABSORB, at the port. -/
def execAbsorb (d : Byte) (s : State) : Result := s.serve (absorbCommand d)

/-- FINAL (R153). -/
def finalCommand (s : State) : State :=
  if s.phase ≠ .absorb then s.raiseFault .seqFinal
  else State.closeBlock { s with S := padInPlace s.S s.pos } true

/-- FINAL, at the port. -/
def execFinal (s : State) : Result := s.serve finalCommand

/-- SQUEEZE (R154). -/
def squeezeCommand (i : BitVec 5) (s : State) : State :=
  if s.phase ≠ .done then s.raiseFault .seqSqueeze
  else s.respond 0x0#4 (decodeByte s.S i)

/-- SQUEEZE, at the port. -/
def execSqueeze (i : BitVec 5) (s : State) : Result := s.serve (squeezeCommand i)

/-- STATUS (R155), served in every phase, FAULT included. -/
def execStatus (s : State) : Result :=
  if s.busy then .next s else .next (s.respond 0x0#4 s.statusByte)

/-- A word that is no command (R63): ILLEGAL_CMD; in FAULT it is refused as any word is (R184). -/
def execIllegal (_w : Command) (s : State) : Result := s.serve fun t => t.raiseFault .illegalCmd

end Sys2Proof.Machine
end

