-- ==== Sys2Proof/Machine/Functions.lean ====
section
/-! DEFINITION. The meanings of the function rows, which no command word reaches (R66): a function from state to state acts
on `S`, any other leaves its result in `value`; nothing else changes (log entries 4 and 5). -/

namespace Sys2Proof.Machine

/-- Apply a function of the state array. -/
def State.applyS (s : State) (f : NibState → NibState) : Result := .next { s with S := f s.S }

/-- Leave a function's value. -/
def State.answer (s : State) (v : FnValue) : Result := .next { s with value := v }

/-- ADD16 (R80). -/
def execAdd16 (a b : Nib) (s : State) : Result := s.answer (.nibble (add16 a b))

/-- ROUND (R105). -/
def execRound (r : BitVec 4) (s : State) : Result := s.applyS (oneRound r)

/-- PERMUTATION (R106). -/
def execPermutation (s : State) : Result := s.applyS permutation

/-- ENCODE_BYTE (R120). -/
def execEncodeByte (b : Byte) (s : State) : Result := s.answer (.nibbles (encodeByte b))

/-- ENCODE_MESSAGE (R121). -/
def execEncodeMessage (m : List Byte) (s : State) : Result := s.answer (.nibbles (encodeMessage m))

/-- PAD (R122). -/
def execPad (m : List Byte) (s : State) : Result := s.answer (.nibbles (pad m))

/-- PAD_IN_PLACE (R127). -/
def execPadInPlace (pos : BitVec 5) (s : State) : Result := s.applyS fun S => padInPlace S pos

/-- DECODE_BYTE (R125). -/
def execDecodeByte (i : BitVec 5) (s : State) : Result := s.answer (.byte (decodeByte s.S i))

/-- ABSORB_BLOCK (R141). -/
def execAbsorbBlock (p : Block) (s : State) : Result := s.applyS fun S => absorbBlock S p

/-- HASH (R140). -/
def execHash (m : List Byte) (s : State) : Result := s.answer (.bytes (hashMessage m))

end Sys2Proof.Machine
end

