-- ==== Sys2Proof/Machine/Pseudo.lean ====
section
/-! DEFINITION. The meanings of the pseudo-commands (R69): HASH and DIGEST stand for command words, which the host then
gives next; RESET is the reset event (log entry 14). -/

namespace Sys2Proof.Machine

/-- START; ABSORB each byte in order; FINAL (R69). -/
def sessionWords (m : List Byte) : List Command :=
  [0x100#12] ++ m.map (fun d => 0x200#12 + d.setWidth 12) ++ [0x300#12]

/-- SQUEEZE 0 to SQUEEZE 31 (R69). -/
def digestWords : List Command := (List.range Config.digestBytes).map fun i => 0x400#12 + BitVec.ofNat 12 i

/-- The host gives these words next. -/
def State.giveWords (s : State) (ws : List Command) : State := { s with host := ws.map .word ++ s.host }

/-- HASH_SCRIPT (R69). -/
def execHashScript (m : List Byte) (s : State) : Result := .next (s.giveWords (sessionWords m))

/-- DIGEST (R69). -/
def execDigest (s : State) : Result := .next (s.giveWords digestWords)

/-- RESET (R69, R200). -/
def execReset (s : State) : Result := .next s.resetEvent

end Sys2Proof.Machine
end

