-- ==== Sys2Proof/Machine/Sequencer.lean ====
section
/-! DEFINITION. The meanings of the sequencer's four steps: one layer on the whole state (R160), then the sequencer's
advance (R161). -/

namespace Sys2Proof.Machine

/-- One micro-step with the layer `layer` (R160, R161). -/
def State.microStep (s : State) (layer : NibState → NibState) : State := State.advance { s with S := layer s.S }

/-- SUBNIBBLES (R100). -/
def execSubNibbles (s : State) : Result := .next (s.microStep subNibbles)

/-- PERMUTENIBBLES (R101). -/
def execPermuteNibbles (s : State) : Result := .next (s.microStep permuteNibbles)

/-- MIXCOLUMNS (R102). -/
def execMixColumns (s : State) : Result := .next (s.microStep mixColumns)

/-- ADDCONSTANT with the round index in `rnd` (R104). -/
def execAddConstant (s : State) : Result := .next (s.microStep (addConstant s.rnd))

end Sys2Proof.Machine
end

