-- ==== Sys2Proof/Machine/Dispatch.lean ====
section
/-! DEFINITION. One arm per row of the opcode table, each a direct call of that row's meaning. -/

namespace Sys2Proof.Machine

def exec (i : Instr) (s : State) : Host.Outcome State Fault Refusal :=
  match i with
  | .start => Sys2Proof.Machine.execStart s
  | .absorb d => Sys2Proof.Machine.execAbsorb d s
  | .final => Sys2Proof.Machine.execFinal s
  | .squeeze k => Sys2Proof.Machine.execSqueeze k s
  | .status => Sys2Proof.Machine.execStatus s
  | .illegal w => Sys2Proof.Machine.execIllegal w s
  | .subNibbles => Sys2Proof.Machine.execSubNibbles s
  | .permuteNibbles => Sys2Proof.Machine.execPermuteNibbles s
  | .mixColumns => Sys2Proof.Machine.execMixColumns s
  | .addConstant => Sys2Proof.Machine.execAddConstant s
  | .add16 a b => Sys2Proof.Machine.execAdd16 a b s
  | .round r => Sys2Proof.Machine.execRound r s
  | .permutation => Sys2Proof.Machine.execPermutation s
  | .encodeByte b => Sys2Proof.Machine.execEncodeByte b s
  | .encodeMessage m => Sys2Proof.Machine.execEncodeMessage m s
  | .pad m => Sys2Proof.Machine.execPad m s
  | .padInPlace pos => Sys2Proof.Machine.execPadInPlace pos s
  | .decodeByte k => Sys2Proof.Machine.execDecodeByte k s
  | .absorbBlock p => Sys2Proof.Machine.execAbsorbBlock p s
  | .hash m => Sys2Proof.Machine.execHash m s
  | .hashScript m => Sys2Proof.Machine.execHashScript m s
  | .digest => Sys2Proof.Machine.execDigest s
  | .reset => Sys2Proof.Machine.execReset s

end Sys2Proof.Machine
end

