-- ==== Sys2Proof/Machine/Fetch.lean ====
section
/-! DEFINITION. What the core does next: the host's act, or the sequencer's own step (R7, R159, R160, R205, R211). The core
fetches no instruction from a memory (R31, R48). -/

namespace Sys2Proof.Machine

/-- What the core does by itself: while `busy` the layer that `stage` selects (R160), else nothing: it holds its registers
(R191; log entry 17). -/
def State.ownStep (s : State) : Option Instr := if s.busy then some (decodeStage s.stage) else none

/-- The operation of the next step, if there is one, and the state it runs on. `resetNow` comes at once (R200, R211); a
command word or a pseudo-command waits until the core is ready (R159, R205); with `wait` or nothing from the host the core
steps by itself. -/
def State.fetch (s : State) : Option Instr × State :=
  match s.host with
  | [] => (s.ownStep, s)
  | .wait :: rest => (s.ownStep, { s with host := rest })
  | .resetNow :: rest => (some .reset, { s with host := rest })
  | .word w :: rest => if s.busy then (s.ownStep, s) else (some (decodeCommand w), { s with host := rest })
  | .hash m :: rest => if s.busy then (s.ownStep, s) else (some (.hashScript m), { s with host := rest })
  | .digest :: rest => if s.busy then (s.ownStep, s) else (some .digest, { s with host := rest })
  | .reset :: rest => if s.busy then (s.ownStep, s) else (some .reset, { s with host := rest })

/-- `s` with a code where the next step looks for its operation (log entry 12): a command word is the host's next act, at a
core that is ready; a stage code is the sequencer's next layer, the host giving nothing for that step. -/
def State.placeCode (s : State) : Code → State
  | .command w => { s with busy := false, host := .word w :: s.host }
  | .stage v => { s with busy := true, stage := v, host := .wait :: s.host }

end Sys2Proof.Machine
end

