-- ==== Sys2Proof/Machine/Step.lean ====
section
/-! DEFINITION. One step of the core and its host. -/

namespace Sys2Proof.Machine

/-- One step: the next operation is run; with none the core holds its registers (R7, R191). -/
def step (s : State) : Host.Outcome State Fault Refusal :=
  match s.fetch with
  | (some i, t) => exec i t
  | (none, t) => .next t

/-- `s` with a row's bits where `step` takes its next operation (log entries 12 and 15); bits that are no code place
nothing. -/
def State.withFetchWord (s : State) (nbits w : Nat) : State :=
  match tableCode nbits w with
  | some c => s.placeCode c
  | none => s

end Sys2Proof.Machine
end

