-- ==== Sys2Proof/Machine/Script.lean ====
section
/-! DEFINITION. The text of a command script (R68, R69) and the hex convention (R71), at the host's side of the port. What
the spec leaves open of the text (spacing, letter case of a hex digit) is log entry 20. -/

namespace Sys2Proof.Machine

/-- The value of a hex digit, either case (R71). -/
def hexValue (c : Char) : Option Nat :=
  let n := c.toNat
  if 48 ≤ n ∧ n ≤ 57 then some (n - 48)
  else if 65 ≤ n ∧ n ≤ 70 then some (n - 55)
  else if 97 ≤ n ∧ n ≤ 102 then some (n - 87)
  else none

/-- The lower-case hex digit of a nibble (R71). -/
def hexDigit (v : Nib) : Char :=
  if v.toNat < 10 then Char.ofNat (48 + v.toNat) else Char.ofNat (87 + v.toNat)

/-- A digit string in base `base`, most significant digit first, after the value `acc` of the digits before. -/
def digitsValue (base : Nat) : Nat → List Char → Option Nat
  | acc, [] => some acc
  | acc, c :: cs =>
    match hexValue c with
    | some v => if v < base then digitsValue base (base * acc + v) cs else none
    | none => none

/-- A number of a script: decimal, or hex after `0x` (R68). -/
def numberOf : List Char → Option Nat
  | [] => none
  | '0' :: 'x' :: [] => none
  | '0' :: 'x' :: ds => digitsValue 16 0 ds
  | ds => digitsValue 10 0 ds

/-- The bytes of a hex string: two digits each, the high nibble first (R71). -/
def hexBytes : List Char → Option (List Byte)
  | [] => some []
  | [_] => none
  | c :: d :: cs =>
    match hexValue c, hexValue d, hexBytes cs with
    | some h, some l, some bs => some (BitVec.ofNat 8 (16 * h + l) :: bs)
    | _, _, _ => none

/-- The 64 hex digits of a digest: `S[0], S[1], ..., S[63]` (R71). -/
def digestHex (S : NibState) : List Char := S.toList.map hexDigit

/-- A script line without its comment: `#` starts one (R68). -/
def withoutComment : List Char → List Char
  | [] => []
  | c :: cs => if c = '#' then [] else c :: withoutComment cs

/-- The words of a line, between blanks; `cur` is the word in progress, last character first. -/
def tokensFrom (cur : List Char) : List Char → List (List Char)
  | [] => if cur = [] then [] else [cur.reverse]
  | c :: cs =>
    if c = ' ' ∨ c = '\t' then (if cur = [] then tokensFrom [] cs else cur.reverse :: tokensFrom [] cs)
    else tokensFrom (c :: cur) cs

/-- One line of a script: what the host does, if anything, and the response it states, if it states one (R68). R68 has one
command a line and one response after it; that a line may hold no command, and that any line may state a response, a
pseudo-command's and one without a command among them, is the model's choice (DESIGN CHOICE, log entry 20). -/
structure ScriptLine where
  event : Option HostEvent
  expect : Option Response
  deriving DecidableEq, Repr

/-- A number below `bound`; an operand out of range is an error of the script (R68). -/
def operand (bound : Nat) (t : List Char) : Option Nat :=
  match numberOf t with
  | some n => if n < bound then some n else none
  | none => none

/-- What a line's words ask of the host (R68, R69): the outer `none` is an error of the script, the inner one a line without a
command (a blank line, a comment, a stated response alone), which R68 does not speak of (DESIGN CHOICE, log entry 20). -/
def eventOf : List (List Char) → Option (Option HostEvent)
  | [] => some none
  | [['S', 'T', 'A', 'R', 'T']] => some (some (.word 0x100#12))
  | [['F', 'I', 'N', 'A', 'L']] => some (some (.word 0x300#12))
  | [['S', 'T', 'A', 'T', 'U', 'S']] => some (some (.word 0x500#12))
  | [['D', 'I', 'G', 'E', 'S', 'T']] => some (some .digest)
  | [['R', 'E', 'S', 'E', 'T']] => some (some .reset)
  | [['H', 'A', 'S', 'H']] => some (some (.hash []))
  | [['H', 'A', 'S', 'H'], t] => (hexBytes t).map fun m => some (.hash m)
  | [['A', 'B', 'S', 'O', 'R', 'B'], t] => (operand 256 t).map fun n => some (.word (0x200#12 + BitVec.ofNat 12 n))
  | [['S', 'Q', 'U', 'E', 'E', 'Z', 'E'], t] => (operand 32 t).map fun n => some (.word (0x400#12 + BitVec.ofNat 12 n))
  | [['.', 'w', 'o', 'r', 'd'], t] => (operand 4096 t).map fun n => some (.word (BitVec.ofNat 12 n))
  | _ => none

/-- The words of a line before `->`, and the ones after it. -/
def splitArrow : List (List Char) → List (List Char) × Option (List (List Char))
  | [] => ([], none)
  | t :: ts =>
    if t = ['-', '>'] then ([], some ts)
    else ((t :: (splitArrow ts).1), (splitArrow ts).2)

/-- The response a line states: 3 hex digits after `->` (R68). -/
def expectOf : Option (List (List Char)) → Option (Option Response)
  | none => some none
  | some [[a, b, c]] => (digitsValue 16 0 [a, b, c]).map fun n => some (BitVec.ofNat 12 n)
  | some _ => none

/-- One line of a script (R68, R69); `none` is an error of the script. A response may be stated on any line (DESIGN CHOICE, log
entry 20). -/
def parseLine (cs : List Char) : Option ScriptLine :=
  let ts := splitArrow (tokensFrom [] (withoutComment cs))
  match eventOf ts.1, expectOf ts.2 with
  | some ev, some ex => some ⟨ev, ex⟩
  | _, _ => none

/-- What the host does for a whole script, one line after another; `none` where a line is in error. The responses that lines
state are not acts of the host and are left out, a pseudo-command's too (DESIGN CHOICE, log entry 20). -/
def assemble : List (List Char) → Option (List HostEvent)
  | [] => some []
  | cs :: rest =>
    match parseLine cs, assemble rest with
    | some l, some evs => some (l.event.toList ++ evs)
    | _, _ => none

end Sys2Proof.Machine
end

