-- ==== Sys2Proof/Safety.lean ====
section
/-! DEFINITION. What a safe run is (R193, R210), and the invariants of the core (R33). -/

namespace Sys2Proof.Machine

/-- "Gone wrong" (R193). -/
abbrev State.goneWrong (s : State) : Prop := s.phase = .fault

/-- The core takes a command word now, and carries it out or faults on it (R150, R159, R184). -/
abbrev State.ready (s : State) : Prop := s.busy = false ∧ s.phase ≠ .fault

/-- A run has ended well (R210): the host has given its last command, the core has answered it, and `fcode = 0`. It looks at
the last state only. R210 does not cover a run that a reset cut in the middle of a command; after such a reset, with nothing
left to give, the last state meets the predicate although the cut command was never answered (DESIGN CHOICE, log entry 24). -/
abbrev State.endedWell (s : State) : Prop := s.host = [] ∧ s.busy = false ∧ s.fcode = .none

/-- The invariants of R33: `pos` is even and at most 30; it is 0 in IDLE and DONE; `fcode = 0` exactly when the phase is not
FAULT; at a command boundary the sequencer's registers are at rest, a running Permutation is one of phase ABSORB, and the
command-level machine is always at a boundary. That `S` has 64 nibbles of 0..15 is in its type. -/
structure State.Inv (s : State) : Prop where
  posEven : s.pos.toNat % 2 = 0
  posAtMost30 : s.pos.toNat ≤ 30
  posZero : s.phase = .idle ∨ s.phase = .done → s.pos = 0#5
  fcodeFault : s.fcode = .none ↔ s.phase ≠ .fault
  atRest : s.busy = false → s.rnd = 0#4 ∧ s.stage = 0#2 ∧ s.fin = false
  runningInAbsorb : s.busy = true → s.phase = .absorb
  commandLevelAtRest : s.level = .command → s.busy = false

/-- A busy core lets the event wait (R159, R205): all but a reset at once and a step in which the host gives nothing. -/
def HostEvent.waits : HostEvent → Bool
  | .word _ => true
  | .hash _ => true
  | .digest => true
  | .reset => true
  | .resetNow => false
  | .wait => false

/-- The event is a reset. -/
def HostEvent.isReset : HostEvent → Bool
  | .reset => true
  | .resetNow => true
  | .word _ => false
  | .hash _ => false
  | .digest => false
  | .wait => false

end Sys2Proof.Machine
end

