-- ==== Sys2Proof/Certificates/Slice0/Obligations.lean ====
section
/-! DEFINITION. The statements for the provers. Each docstring names the rule of spec/ it formalises. -/

open Sys2Proof Sys2Proof.Machine

/-! ## Encoding -/

/-- R67: what every word decodes to, what every command encodes to, and that each is the inverse of the other on the legal
words. With the stage codes of R66, and with the ILLEGAL words, of which each keeps its word and encodes back to it (the
model's choice, log entry 16), every code has its instruction, and a well-formed instruction that has a code is decoded from
it. -/
def Obligations.DecodeAndEncodeAreInverse : Prop :=
  (∀ w : Command,
    (w.toNat / 256 = 1 ∧ w.toNat % 256 = 0 → decode (.command w) = .start) ∧
    (w.toNat / 256 = 2 → decode (.command w) = .absorb (BitVec.ofNat 8 (w.toNat % 256))) ∧
    (w.toNat / 256 = 3 ∧ w.toNat % 256 = 0 → decode (.command w) = .final) ∧
    (w.toNat / 256 = 4 ∧ w.toNat % 256 < 32 → decode (.command w) = .squeeze (BitVec.ofNat 5 (w.toNat % 256))) ∧
    (w.toNat / 256 = 5 ∧ w.toNat % 256 = 0 → decode (.command w) = .status) ∧
    (legalWord w = false → decode (.command w) = .illegal w)) ∧
  encode .start = some (.command 0x100#12) ∧
  (∀ d : Byte, encode (.absorb d) = some (.command (BitVec.ofNat 12 (0x200 + d.toNat)))) ∧
  encode .final = some (.command 0x300#12) ∧
  (∀ i : BitVec 5, encode (.squeeze i) = some (.command (BitVec.ofNat 12 (0x400 + i.toNat)))) ∧
  encode .status = some (.command 0x500#12) ∧
  (∀ i c, i.wf = true → encode i = some c → decode c = i) ∧
  (∀ c, (decode c).wf = true ∧ encode (decode c) = some c)

/-- The sixteen words of the decoding table of 95_test_vectors.md section 2.11 and the four stage codes of R66. That a command
is given in 16 bits and a stage code in 8 is the model's choice (log entry 15), and so is the word that an ILLEGAL keeps (log
entry 16). -/
def Obligations.DecodingOfTheSpecsWords : Prop :=
  decodeTableWord 16 0x100 = some .start ∧ decodeTableWord 16 0x200 = some (.absorb 0x00#8) ∧
  decodeTableWord 16 0x2FF = some (.absorb 0xFF#8) ∧ decodeTableWord 16 0x261 = some (.absorb 0x61#8) ∧
  decodeTableWord 16 0x300 = some .final ∧ decodeTableWord 16 0x400 = some (.squeeze 0#5) ∧
  decodeTableWord 16 0x41F = some (.squeeze 31#5) ∧ decodeTableWord 16 0x500 = some .status ∧
  decodeTableWord 16 0x000 = some (.illegal 0x000#12) ∧ decodeTableWord 16 0x101 = some (.illegal 0x101#12) ∧
  decodeTableWord 16 0x301 = some (.illegal 0x301#12) ∧ decodeTableWord 16 0x420 = some (.illegal 0x420#12) ∧
  decodeTableWord 16 0x4FF = some (.illegal 0x4FF#12) ∧ decodeTableWord 16 0x501 = some (.illegal 0x501#12) ∧
  decodeTableWord 16 0x600 = some (.illegal 0x600#12) ∧ decodeTableWord 16 0xFFF = some (.illegal 0xFFF#12) ∧
  decodeTableWord 8 0 = some .subNibbles ∧ decodeTableWord 8 1 = some .permuteNibbles ∧
  decodeTableWord 8 2 = some .mixColumns ∧ decodeTableWord 8 3 = some .addConstant

/-- R61: each row's match and mask select exactly its command's words, no word is in two rows, and the eleven opcodes that
are not assigned are illegal. -/
def Obligations.OpcodeMapSelectsTheCommands : Prop :=
  opcodeMap.map (fun r => (r.mnemonic, r.matchBits.toNat, r.mask.toNat)) =
    [("START", 0x100, 0xFFF), ("ABSORB", 0x200, 0xF00), ("FINAL", 0x300, 0xFFF), ("SQUEEZE", 0x400, 0xFE0),
     ("STATUS", 0x500, 0xFFF)] ∧
  ∀ w : Command,
    (w &&& 0xFFF#12 = 0x100#12 ↔ decodeCommand w = .start) ∧
    (w &&& 0xF00#12 = 0x200#12 ↔ ∃ d, decodeCommand w = .absorb d) ∧
    (w &&& 0xFFF#12 = 0x300#12 ↔ decodeCommand w = .final) ∧
    (w &&& 0xFE0#12 = 0x400#12 ↔ ∃ i, decodeCommand w = .squeeze i) ∧
    (w &&& 0xFFF#12 = 0x500#12 ↔ decodeCommand w = .status) ∧
    (∀ r₁ ∈ opcodeMap, ∀ r₂ ∈ opcodeMap, r₁.has w = true → r₂.has w = true → r₁ = r₂) ∧
    (w.toNat / 256 = 0 ∨ 6 ≤ w.toNat / 256 → decodeCommand w = .illegal w)

/-- R63: which words are illegal, how many, and what an illegal word does outside FAULT: the fault ILLEGAL_CMD and nothing
else. -/
def Obligations.IllegalWordsRaiseIllegalCmd : Prop :=
  (∀ w : Command, decodeCommand w = .illegal w ↔
    (w.toNat / 256 = 0 ∨ 6 ≤ w.toNat / 256) ∨
    ((w.toNat / 256 = 1 ∨ w.toNat / 256 = 3 ∨ w.toNat / 256 = 5) ∧ w.toNat % 256 ≠ 0) ∨
    (w.toNat / 256 = 4 ∧ 32 ≤ w.toNat % 256)) ∧
  ((List.range 4096).countP fun n => legalWord (BitVec.ofNat 12 n)) = 291 ∧
  ((List.range 4096).countP fun n => !legalWord (BitVec.ofNat 12 n)) = 3805 ∧
  decodeCommand 0x000#12 = .illegal 0x000#12 ∧ decodeCommand 0xFFF#12 = .illegal 0xFFF#12 ∧
  ∀ (w : Command) (s : State), s.ready →
    exec (.illegal w) s = .next { s with fcode := .illegalCmd, phase := .fault, rsps := s.rsps ++ [0x100#12] }

/-- R66: the stage code selects the layer, and no command word is a layer, a round or a Permutation. -/
def Obligations.OnlyTheStageSelectsALayer : Prop :=
  decode (.stage 0#2) = .subNibbles ∧ decode (.stage 1#2) = .permuteNibbles ∧ decode (.stage 2#2) = .mixColumns ∧
  decode (.stage 3#2) = .addConstant ∧
  ∀ w : Command, decode (.command w) ≠ .subNibbles ∧ decode (.command w) ≠ .permuteNibbles ∧
    decode (.command w) ≠ .mixColumns ∧ decode (.command w) ≠ .addConstant ∧
    (∀ r, decode (.command w) ≠ .round r) ∧ decode (.command w) ≠ .permutation

/-! ## The step -/

/-- A step runs the decoded operation (R7, R159, R160, R191, R205, R211): the host's word or pseudo-command at a core that is
ready, the layer that `stage` selects at a core that is busy, a reset at once; with none of these the core holds its
registers. How the host's acts stand in State is the model's choice (log entries 2, 8, 14, 17). -/
def Obligations.StepRunsTheDecodedOperation : Prop :=
  (∀ (s : State) w l, s.busy = false → s.host = .word w :: l →
    step s = exec (decode (.command w)) { s with host := l }) ∧
  (∀ (s : State) m l, s.busy = false → s.host = .hash m :: l → step s = exec (.hashScript m) { s with host := l }) ∧
  (∀ (s : State) l, s.busy = false → s.host = .digest :: l → step s = exec .digest { s with host := l }) ∧
  (∀ (s : State) l, s.busy = false → s.host = .reset :: l → step s = exec .reset { s with host := l }) ∧
  (∀ (s : State) l, s.host = .resetNow :: l → step s = exec .reset { s with host := l }) ∧
  (∀ (s : State), s.busy = true → s.host = [] → step s = exec (decode (.stage s.stage)) s) ∧
  (∀ (s : State) e l, s.busy = true → s.host = e :: l → e.waits = true →
    step s = exec (decode (.stage s.stage)) s) ∧
  (∀ (s : State) l, s.busy = true → s.host = .wait :: l →
    step s = exec (decode (.stage s.stage)) { s with host := l }) ∧
  (∀ (s : State), s.busy = false → s.host = [] → step s = .next s) ∧
  (∀ (s : State) l, s.busy = false → s.host = .wait :: l → step s = .next { s with host := l })

/-- A row's bits, put where the next step looks, are what the next step runs: a command at a core that is ready for it, a stage
code at a core whose sequencer is running at that stage. Nothing else of the state differs. Where the bits are put is the
model's choice (log entries 12 and 15). -/
def Obligations.PlacedBitsAreRunNext : Prop :=
  ∀ (s : State) nbits w c, tableCode nbits w = some c →
    ∃ t, step (s.withFetchWord nbits w) = exec (decode c) t ∧ decodeTableWord nbits w = some (decode c) ∧
      (∀ v, c = .command v → t.busy = false ∧ t.stage = s.stage) ∧ (∀ v, c = .stage v → t.busy = true ∧ t.stage = v) ∧
      t.S = s.S ∧ t.pos = s.pos ∧ t.phase = s.phase ∧ t.fcode = s.fcode ∧ t.rnd = s.rnd ∧ t.fin = s.fin ∧
      t.level = s.level ∧ t.host = s.host ∧ t.rsps = s.rsps ∧ t.value = s.value

/-- R150, R143, R180: every operation in every state has an outcome, and it is a next state; so has every step. -/
def Obligations.EveryStepAnswersANextState : Prop :=
  (∀ i s, ∃ t, exec i s = .next t) ∧ ∀ s, ∃ t, step s = .next t

/-! ## add16 and the tables -/

/-- R80: `add16` and its laws, and the row ADD16, which changes nothing but the value it leaves (log entry 4). -/
def Obligations.Add16AddsModulo16 : Prop :=
  (∀ a b : Nib, (add16 a b).toNat = (a.toNat + b.toNat) % 16 ∧ add16 a b = add16 b a ∧ add16 a 0#4 = a ∧
    add16 (add16 a b) (BitVec.ofNat 4 ((16 - b.toNat) % 16)) = a ∧
    add16 (add16 a (BitVec.ofNat 4 ((16 - b.toNat) % 16))) b = a) ∧
  (∀ a b c : Nib, add16 (add16 a b) c = add16 a (add16 b c)) ∧
  add16 15#4 1#4 = 0#4 ∧ add16 15#4 15#4 = 14#4 ∧ add16 8#4 8#4 = 0#4 ∧ add16 0#4 0#4 = 0#4 ∧ add16 0xC#4 9#4 = 5#4 ∧
  ∀ (a b : Nib) (s : State),
    exec (.add16 a b) s = .next { s with value := .nibble (BitVec.ofNat 4 ((a.toNat + b.toNat) % 16)) }

/-- R81: the three forms of `add16` agree on all pairs, and a sum of four may be reduced once. -/
def Obligations.Add16FormsAgree : Prop :=
  (∀ a b : Nib, add16Subtract a b = add16 a b ∧ add16LowBits a b = add16 a b) ∧
  ∀ a b c d : Nib, (add16 (add16 a b) (add16 c d)).toNat = (a.toNat + b.toNat + c.toNat + d.toNat) % 16

/-- R82, R89: the S-box and its inverse. -/
def Obligations.SboxIsTheTable : Prop :=
  sboxTable.toList.map BitVec.toNat = [0xC, 5, 6, 0xB, 9, 0, 0xA, 0xD, 3, 0xE, 0xF, 8, 4, 7, 1, 2] ∧
  (∀ v : Nib, sbox v = sboxTable[v.toNat]) ∧
  (∀ u v : Nib, sbox u = sbox v → u = v) ∧ (∀ v : Nib, ∃ u, sbox u = v) ∧ (∀ v : Nib, sbox v ≠ v) ∧
  sbox (sbox 0#4) = 4#4 ∧
  invSboxTable.toList.map BitVec.toNat = [5, 0xE, 0xF, 8, 0xC, 1, 2, 0xD, 0xB, 4, 6, 3, 0, 7, 9, 0xA] ∧
  ∀ v : Nib, invSbox v = invSboxTable[v.toNat] ∧ invSbox (sbox v) = v

/-- R83, R84: the round constants, and the generator that reproduces them. -/
def Obligations.RoundConstantsAreTheTable : Prop :=
  rcTable.toList.map BitVec.toNat = [1, 8, 0xC, 0xE, 0xF, 7, 0xB, 5, 0xA, 0xD, 6, 3, 9, 4, 2, 1] ∧
  (∀ r : BitVec 4, rc r = rcTable[r.toNat] ∧ rc r ≠ 0#4 ∧ rc r = lfsr r.toNat) ∧
  rc 15#4 = rc 0#4 ∧ rc 0#4 = 1#4 ∧ (∀ k, lfsr k ≠ 0#4 ∧ lfsr (k + 15) = lfsr k)

/-- R85, R86: PERM as the destination of row rotation and transposition, and as the literal. -/
def Obligations.PermRotatesAndTransposes : Prop :=
  (∀ r c : Fin 8, (perm ⟨8 * r.val + c.val, by omega⟩).val = 8 * ((c.val + 8 - r.val) % 8) + r.val) ∧
  (∀ a b : Fin 8, (perm ⟨8 * b.val + (a.val + b.val) % 8, by omega⟩).val = 8 * a.val + b.val) ∧
  permTable.toList.map Fin.val =
    [0, 8, 16, 24, 32, 40, 48, 56, 57, 1, 9, 17, 25, 33, 41, 49, 50, 58, 2, 10, 18, 26, 34, 42, 43, 51, 59, 3, 11, 19,
     27, 35, 36, 44, 52, 60, 4, 12, 20, 28, 29, 37, 45, 53, 61, 5, 13, 21, 22, 30, 38, 46, 54, 62, 6, 14, 15, 23, 31,
     39, 47, 55, 63, 7] ∧
  ∀ i : Fin 64, perm i = permTable[i.val]

/-- R87: PERM is a bijection, INV_PERM its inverse by its formula, and the lengths of its cycles: one index of period 1,
three of period 3, twelve of period 6, forty-eight of period 12. -/
def Obligations.PermIsABijection : Prop :=
  (∀ i : Fin 64, ∃! j : Fin 64, perm j = i) ∧
  (∀ i : Fin 64, invPerm (perm i) = i ∧ invPerm i = invPermTable[i.val]) ∧
  (∀ a b : Fin 8, (invPerm ⟨8 * a.val + b.val, by omega⟩).val = 8 * b.val + (a.val + b.val) % 8) ∧
  (∀ i : Fin 64, perm i = i ↔ i = 0) ∧ perm 4 = 32 ∧ perm 32 = 36 ∧ perm 36 = 4 ∧
  (∀ i : Fin 64, perm^[12] i = i) ∧
  [1, 3, 6, 12].map (fun d => (List.finRange 64).countP fun i =>
    decide (perm^[d] i = i) && (List.range d).all fun k => k == 0 || !decide (perm^[k] i = i)) = [1, 3, 12, 48]

/-! ## The layers -/

/-- R100: SUBNIBBLES as the sequencer takes it: every nibble through the S-box, none unchanged, and the sequencer goes on to
stage 1. -/
def Obligations.SubNibblesSubstitutesEveryNibble : Prop :=
  ∀ s : State, s.busy = true → s.stage = 0#2 →
    ∃ T : NibState, exec .subNibbles s = .next { s with S := T, stage := 1#2 } ∧
      (∀ i : Fin 64, T[i.val] = sboxTable[(s.S[i.val]).toNat] ∧ T[i.val] ≠ s.S[i.val]) ∧
      ((∀ i : Fin 64, s.S[i.val] = 0#4) → ∀ i : Fin 64, T[i.val] = 0xC#4)

/-- R101: PERMUTENIBBLES as the sequencer takes it: the nibble at `i` moves to `PERM[i]`, every read is of the state on
entry, and the sequencer goes on to stage 2. -/
def Obligations.PermuteNibblesMovesToPerm : Prop :=
  ∀ s : State, s.busy = true → s.stage = 1#2 →
    ∃ T : NibState, exec .permuteNibbles s = .next { s with S := T, stage := 2#2 } ∧
      (∀ i : Fin 64, T[(permTable[i.val]).val] = s.S[i.val]) ∧
      (∀ a b : Fin 8, T[8 * a.val + b.val] = s.S[8 * b.val + (a.val + b.val) % 8]) ∧
      (∀ j : Fin 64, T[j.val] = s.S[(invPermTable[j.val]).val]) ∧
      T[0] = s.S[0] ∧ (∀ v : Nib, (∀ i : Fin 64, s.S[i.val] = v) → T = s.S)

/-- R102, R103: MIXCOLUMNS as the sequencer takes it: each nibble is the sum of its own and the three below it in its column,
all read from the state on entry, and the sequencer goes on to stage 3. -/
def Obligations.MixColumnsSumsFourRowsOfTheSnapshot : Prop :=
  ∀ s : State, s.busy = true → s.stage = 2#2 →
    ∃ T : NibState, exec .mixColumns s = .next { s with S := T, stage := 3#2 } ∧
      (∀ r c : Fin 8, (T[8 * r.val + c.val]).toNat =
        ((s.S[8 * r.val + c.val]).toNat + (s.S[8 * ((r.val + 1) % 8) + c.val]).toNat +
          (s.S[8 * ((r.val + 2) % 8) + c.val]).toNat + (s.S[8 * ((r.val + 3) % 8) + c.val]).toNat) % 16) ∧
      ((∀ i : Fin 64, s.S[i.val] = 0#4) → ∀ i : Fin 64, T[i.val] = 0#4) ∧
      ((∀ i : Fin 64, s.S[i.val] = 15#4) → ∀ i : Fin 64, T[i.val] = 12#4)

/-- R104: ADDCONSTANT as the sequencer takes it: `RC[rnd]` into nibble 63, which it always changes, and into no other; then
the next round begins, or after round 15 the command is answered (R161). -/
def Obligations.AddConstantTouchesOnlyNibble63 : Prop :=
  ∀ s : State, s.busy = true → s.stage = 3#2 →
    ∃ T : NibState,
      (∀ i : Fin 64, i ≠ 63 → T[i.val] = s.S[i.val]) ∧
      (T[63]).toNat = ((s.S[63]).toNat + (rcTable[s.rnd.toNat]).toNat) % 16 ∧ T[63] ≠ s.S[63] ∧
      (s.rnd ≠ 15#4 → exec .addConstant s = .next { s with S := T, rnd := s.rnd + 1#4, stage := 0#2 }) ∧
      (s.rnd = 15#4 → exec .addConstant s = .next
        { s with S := T, busy := false, rnd := 0#4, stage := 0#2, pos := 0#5,
                 phase := if s.fin then .done else s.phase, fin := false, rsps := s.rsps ++ [0x000#12] })

/-- A row run out of its turn, which no step does: a layer where the sequencer is not running acts on `S` and no more; a host
command while the sequencer runs is not accepted and changes nothing. The model's choice (log entries 6 and 7), no rule. -/
def Obligations.RowsOutsideTheirTurn : Prop :=
  (∀ s : State, s.busy = false →
    exec .subNibbles s = .next { s with S := subNibbles s.S } ∧
    exec .permuteNibbles s = .next { s with S := permuteNibbles s.S } ∧
    exec .mixColumns s = .next { s with S := mixColumns s.S } ∧
    exec .addConstant s = .next { s with S := addConstant s.rnd s.S }) ∧
  ∀ (s : State) (w : Command), s.busy = true → exec (decode (.command w)) s = .next s

/-- R105: ROUND applies the four layers in their order; on the all-zero state it leaves `RC[r]` in nibble 63 and zero
elsewhere. Nothing but `S` changes. -/
def Obligations.RoundAppliesTheFourLayers : Prop :=
  ∀ (r : BitVec 4) (s : State), ∃ T : NibState, exec (.round r) s = .next { s with S := T } ∧
    T = addConstant r (mixColumns (permuteNibbles (subNibbles s.S))) ∧
    ((∀ i : Fin 64, s.S[i.val] = 0#4) →
      (∀ i : Fin 64, i ≠ 63 → T[i.val] = 0#4) ∧ T[63] = rcTable[r.toNat])

/-- R106: PERMUTATION is the sixteen rounds 0 to 15, one after another. Nothing but `S` changes. -/
def Obligations.PermutationIsSixteenRounds : Prop :=
  ∀ s : State, exec .permutation s = .next { s with
    S := oneRound 15#4 (oneRound 14#4 (oneRound 13#4 (oneRound 12#4 (oneRound 11#4 (oneRound 10#4 (oneRound 9#4 (oneRound 8#4
      (oneRound 7#4 (oneRound 6#4 (oneRound 5#4 (oneRound 4#4 (oneRound 3#4 (oneRound 2#4 (oneRound 1#4 (oneRound 0#4 s.S))))))))))))))) }

/-- R108, R109: the S-box and then its inverse, and PERM and then INV_PERM, restore the state. -/
def Obligations.SubstitutionAndPermutationInvert : Prop :=
  ∀ S : NibState, (∀ i : Fin 64, invSbox (subNibbles S)[i.val] = S[i.val]) ∧
    ∀ T U : NibState, T = permuteNibbles S → (∀ i : Fin 64, U[(invPerm i).val] = T[i.val]) → U = S

/-- 41_round_layers.md section 8: MixColumns is not injective; the other three layers are. -/
def Obligations.OnlyMixColumnsLosesInformation : Prop :=
  (∃ S T : NibState, S ≠ T ∧ mixColumns S = mixColumns T) ∧
  ∀ S T : NibState, (subNibbles S = subNibbles T → S = T) ∧ (permuteNibbles S = permuteNibbles T → S = T) ∧
    ∀ r, addConstant r S = addConstant r T → S = T

/-! ## Codec, padding, hash -/

/-- R120, R121: the encoder gives each byte's high nibble and then its low nibble; nothing but the value left changes (log
entry 4). -/
def Obligations.EncoderGivesHighNibbleFirst : Prop :=
  (∀ (b : Byte) (s : State), exec (.encodeByte b) s =
    .next { s with value := .nibbles [BitVec.ofNat 4 (b.toNat / 16), BitVec.ofNat 4 (b.toNat % 16)] }) ∧
  ∀ (m : List Byte) (s : State), ∃ q : List Nib,
    exec (.encodeMessage m) s = .next { s with value := .nibbles q } ∧ q.length = 2 * m.length ∧
    ∀ k b, m[k]? = some b →
      q[2 * k]? = some (BitVec.ofNat 4 (b.toNat / 16)) ∧ q[2 * k + 1]? = some (BitVec.ofNat 4 (b.toNat % 16))

/-- R122, R123: PAD appends `8`, the least number of zeros that makes the length 31 modulo 32, and `1`; the length is 32
nibbles a block, `L div 16 + 1` blocks. Nothing but the value left changes (log entry 4). -/
def Obligations.PadFillsTheLastBlock : Prop :=
  ∀ (m : List Byte) (s : State), ∃ z : Nat,
    exec (.pad m) s =
      .next { s with value := .nibbles (encodeMessage m ++ [8#4] ++ List.replicate z 0#4 ++ [1#4]) } ∧
    (z : Int) = (30 - 2 * (m.length : Int)) % 32 ∧ z % 2 = 0 ∧ z ≤ 30 ∧ (2 * m.length + 1 + z) % 32 = 31 ∧
    (pad m).length = 32 * (m.length / 16 + 1) ∧ (pad m).length = 32 * ((2 * m.length + 2 + 31) / 32) ∧
    32 ≤ (pad m).length

/-- R124: padding is injective, and a message that fills its blocks gets a whole block more. -/
def Obligations.PadIsInjective : Prop :=
  (∀ m m' : List Byte, pad m = pad m' → m = m') ∧
  ∀ m : List Byte, m.length % 16 = 0 → (pad m).length = 2 * m.length + 32

/-- R127: at an even position PAD_IN_PLACE adds `8` at `pos` and `1` at 31, two different nibbles, and so does what
absorbing the rest of the last block of `Pad(M)` would do; nothing but `S` changes. -/
def Obligations.PadInPlaceAddsTheRestOfTheBlock : Prop :=
  (∀ (pos : BitVec 5) (s : State), pos.toNat % 2 = 0 → ∃ T : NibState,
    exec (.padInPlace pos) s = .next { s with S := T } ∧
    T[pos.toNat] = add16 s.S[pos.toNat] 8#4 ∧ T[31] = add16 s.S[31] 1#4 ∧
    (∀ j : Fin 64, j.val ≠ pos.toNat → j.val ≠ 31 → T[j.val] = s.S[j.val]) ∧
    T = absorbBlock s.S
      (blockAt (List.replicate pos.toNat 0#4 ++ [8#4] ++ List.replicate (30 - pos.toNat) 0#4 ++ [1#4]) 0)) ∧
  ∀ (m : List Byte), ∃ tail : List Nib,
    tail = (encodeMessage m).drop (32 * (m.length / 16)) ∧ tail.length = 2 * m.length % 32 ∧
    (pad m).drop (32 * (m.length / 16)) =
      tail ++ [8#4] ++ List.replicate (30 - 2 * m.length % 32) 0#4 ++ [1#4]

/-- R125: DECODE_BYTE is `16 * S[2i] + S[2i+1]` and leaves the state as it is but for the value (log entry 4); a digest is
32 such bytes. -/
def Obligations.DecodeByteJoinsTwoNibbles : Prop :=
  (∀ (i : BitVec 5) (s : State), exec (.decodeByte i) s = .next { s with
    value := .byte (BitVec.ofNat 8 (16 * (s.S[2 * i.toNat]).toNat + (s.S[2 * i.toNat + 1]).toNat)) }) ∧
  ∀ S : NibState, (decodeDigest S).length = 32 ∧ ∀ i : BitVec 5, (decodeDigest S)[i.toNat]? = some (decodeByte S i)

/-- R128: the encoder and the decoder are inverse on a pair of nibbles. -/
def Obligations.EncoderAndDecoderAreInverse : Prop :=
  ∀ (S : NibState) (i : BitVec 5),
    (∀ b : Byte, encodeByte b = [S[2 * i.toNat], S[2 * i.toNat + 1]] → decodeByte S i = b) ∧
    encodeByte (decodeByte S i) = [S[2 * i.toNat], S[2 * i.toNat + 1]]

/-- R141: ABSORB_BLOCK adds the block into the rate and leaves the capacity; nothing but `S` changes. -/
def Obligations.AbsorbBlockAddsIntoTheRate : Prop :=
  ∀ (p : Block) (s : State), ∃ T : NibState, exec (.absorbBlock p) s = .next { s with S := T } ∧
    (∀ i : Fin 32, (T[i.val]).toNat = ((s.S[i.val]).toNat + (p[i.val]).toNat) % 16) ∧
    (∀ i : Fin 64, 32 ≤ i.val → T[i.val] = s.S[i.val]) ∧
    (∀ i : Fin 32, p[i.val] = 0#4 → T[i.val] = s.S[i.val])

/-- R140, R142: HASH: from the all-zero state, for each of the `L div 16 + 1` blocks of the padded stream in order the block
is absorbed and the Permutation run, and the whole last state is the 32 bytes. Nothing but the value left changes (log
entry 4). -/
def Obligations.HashAbsorbsPermutesDecodes : Prop :=
  ∀ (m : List Byte) (s : State), ∃ (f : Nat → NibState) (ds : List Byte),
    exec (.hash m) s = .next { s with value := .bytes ds } ∧
    (∀ i : Fin 64, (f 0)[i.val] = 0#4) ∧
    (∀ k, k < m.length / 16 + 1 → ∃ p : Block,
      (∀ i : Fin 32, (pad m)[32 * k + i.val]? = some p[i.val]) ∧ f (k + 1) = permutation (absorbBlock (f k) p)) ∧
    ds.length = 32 ∧
    ∀ i : Fin 32, ds[i.val]? = some (BitVec.ofNat 8
      (16 * ((f (m.length / 16 + 1))[2 * i.val]).toNat + ((f (m.length / 16 + 1))[2 * i.val + 1]).toNat))

/-! ## The commands -/

/-- R151: START zeroes `S` and `pos`, enters ABSORB and answers OK, in any phase but FAULT; twice is the same as once but for
the second response. -/
def Obligations.StartZeroesTheState : Prop :=
  ∀ s : State, s.ready → ∃ T : NibState, (∀ i : Fin 64, T[i.val] = 0#4) ∧
    exec .start s = .next { s with S := T, pos := 0#5, phase := .absorb, rsps := s.rsps ++ [0x000#12] } ∧
    exec .start { s with S := T, pos := 0#5, phase := .absorb, rsps := s.rsps ++ [0x000#12] } =
      .next { s with S := T, pos := 0#5, phase := .absorb, rsps := s.rsps ++ [0x000#12, 0x000#12] }

/-- R152: ABSORB adds the byte's nibbles at `pos` and `pos + 1` and leaves every other nibble; the byte that fills the block
runs the Permutation; outside ABSORB it faults with `S` and `pos` unchanged. For the command-level machine where a block is
closed (on the refined one see StartingAPermutationMakesTheCoreBusy); `pos` even is InvariantIsKept. -/
def Obligations.AbsorbAddsOneByte : Prop :=
  ∀ (d : Byte) (s : State), s.busy = false → s.pos.toNat % 2 = 0 →
    (s.phase = .absorb → ∃ T : NibState,
      (∀ j : Fin 64, T[j.val] =
        if j.val = s.pos.toNat then add16 s.S[j.val] (BitVec.ofNat 4 (d.toNat / 16))
        else if j.val = s.pos.toNat + 1 then add16 s.S[j.val] (BitVec.ofNat 4 (d.toNat % 16))
        else s.S[j.val]) ∧
      (s.pos ≠ 30#5 →
        exec (.absorb d) s = .next { s with S := T, pos := s.pos + 2#5, rsps := s.rsps ++ [0x000#12] }) ∧
      (s.pos = 30#5 → s.level = .command →
        exec (.absorb d) s = .next { s with S := permutation T, pos := 0#5, rsps := s.rsps ++ [0x000#12] })) ∧
    (s.phase = .idle ∨ s.phase = .done →
      exec (.absorb d) s = .next { s with fcode := .seqAbsorb, phase := .fault, rsps := s.rsps ++ [0x200#12] })

/-- R153: FINAL adds the padding, runs one Permutation and enters DONE; outside ABSORB it faults. For the command-level
machine (on the refined one see StartingAPermutationMakesTheCoreBusy); `pos` even is InvariantIsKept. -/
def Obligations.FinalPadsPermutesAndEntersDone : Prop :=
  ∀ s : State, s.busy = false → s.pos.toNat % 2 = 0 →
    (s.phase = .absorb → s.level = .command → ∃ T : NibState,
      (∀ j : Fin 64, T[j.val] =
        if j.val = s.pos.toNat then add16 s.S[j.val] 8#4
        else if j.val = 31 then add16 s.S[j.val] 1#4
        else s.S[j.val]) ∧
      exec .final s =
        .next { s with S := permutation T, pos := 0#5, phase := .done, rsps := s.rsps ++ [0x000#12] }) ∧
    (s.phase = .idle ∨ s.phase = .done →
      exec .final s = .next { s with fcode := .seqFinal, phase := .fault, rsps := s.rsps ++ [0x300#12] })

/-- R154: SQUEEZE in DONE answers the digest byte and writes nothing; in IDLE and ABSORB it faults. -/
def Obligations.SqueezeReadsADigestByte : Prop :=
  ∀ (i : BitVec 5) (s : State), s.busy = false →
    (s.phase = .done → exec (.squeeze i) s = .next { s with
      rsps := s.rsps ++ [BitVec.ofNat 12 (16 * (s.S[2 * i.toNat]).toNat + (s.S[2 * i.toNat + 1]).toNat)] }) ∧
    (s.phase = .idle ∨ s.phase = .absorb →
      exec (.squeeze i) s = .next { s with fcode := .seqSqueeze, phase := .fault, rsps := s.rsps ++ [0x400#12] })

/-- R155, R27: STATUS, in every phase, answers `{fcode, 00, phase}` and writes nothing; where `fcode` is nonzero exactly in
FAULT it is one of the seven values. -/
def Obligations.StatusAnswersPhaseAndFault : Prop :=
  ∀ s : State, s.busy = false →
    exec .status s = .next { s with
      rsps := s.rsps ++ [BitVec.ofNat 12 (16 * s.fcode.code.toNat + s.phase.code.toNat)] } ∧
    s.statusByte.extractLsb' 2 2 = 0#2 ∧ s.statusByte.extractLsb' 0 2 = s.phase.code ∧
    s.statusByte.extractLsb' 4 4 = s.fcode.code ∧
    ((s.fcode = .none ↔ s.phase ≠ .fault) →
      s.statusByte.toNat ∈ [0x00, 0x01, 0x02, 0x13, 0x23, 0x33, 0x43])

/-- R157: the table of phase transitions, cell by cell, for the word given to a command-level core: the phase after, and the
status code of the one response; "same" cells change no register. Reset takes every phase to IDLE, and a step of a core at
rest in which the host gives neither changes no phase. -/
def Obligations.PhaseTransitionsAreTheTable : Prop :=
  (∀ s : State, ∃ t, exec .reset s = .next t ∧ t.phase = .idle) ∧
  (∀ s t : State, s.busy = false → (∀ w l, s.host ≠ .word w :: l) → (∀ l, s.host ≠ .reset :: l ∧ s.host ≠ .resetNow :: l) →
    step s = .next t → t.phase = s.phase) ∧
  ∀ (s : State) (w : Command) (l : List HostEvent), s.busy = false → s.level = .command → s.host = .word w :: l →
    ∃ t r, step s = .next t ∧ t.rsps = s.rsps ++ [r] ∧ t.host = l ∧ t.busy = false ∧
      (s.phase = .fault → t = { s with host := l, rsps := s.rsps ++ [r] } ∧
        statusCode r = if w = 0x500#12 then 0#4 else s.fcode.code) ∧
      (s.phase ≠ .fault →
        (decodeCommand w = .start → t.phase = .absorb ∧ statusCode r = 0#4 ∧ t.S = zeroState ∧ t.pos = 0#5) ∧
        (∀ d, decodeCommand w = .absorb d →
          (s.phase = .absorb → t.phase = .absorb ∧ statusCode r = 0#4) ∧
          (s.phase ≠ .absorb → t.phase = .fault ∧ t.fcode = .seqAbsorb ∧ statusCode r = 2#4)) ∧
        (decodeCommand w = .final →
          (s.phase = .absorb → t.phase = .done ∧ statusCode r = 0#4) ∧
          (s.phase ≠ .absorb → t.phase = .fault ∧ t.fcode = .seqFinal ∧ statusCode r = 3#4)) ∧
        (∀ i, decodeCommand w = .squeeze i →
          (s.phase = .done → t = { s with host := l, rsps := s.rsps ++ [r] } ∧ statusCode r = 0#4) ∧
          (s.phase ≠ .done → t.phase = .fault ∧ t.fcode = .seqSqueeze ∧ statusCode r = 4#4)) ∧
        (decodeCommand w = .status → t = { s with host := l, rsps := s.rsps ++ [r] } ∧ statusCode r = 0#4) ∧
        (decodeCommand w = .illegal w → t.phase = .fault ∧ t.fcode = .illegalCmd ∧ statusCode r = 1#4))

/-! ## Protocol faults -/

/-- R181, R182: the complete list of faults: each is raised in its phases by its command, sets `fcode` and `phase`, answers
`(code, 0x00)` and keeps everything else; START and STATUS raise none. -/
def Obligations.FaultEntryWritesOnlyPhaseAndCode : Prop :=
  ∀ (s : State) (w : Command) (l : List HostEvent), s.busy = false → s.phase ≠ .fault → s.host = .word w :: l →
    ((∃ v, decodeCommand w = .illegal v) → step s = .next
      { s with host := l, fcode := .illegalCmd, phase := .fault, rsps := s.rsps ++ [0x100#12] }) ∧
    ((∃ d, decodeCommand w = .absorb d) → s.phase = .idle ∨ s.phase = .done → step s = .next
      { s with host := l, fcode := .seqAbsorb, phase := .fault, rsps := s.rsps ++ [0x200#12] }) ∧
    (decodeCommand w = .final → s.phase = .idle ∨ s.phase = .done → step s = .next
      { s with host := l, fcode := .seqFinal, phase := .fault, rsps := s.rsps ++ [0x300#12] }) ∧
    ((∃ i, decodeCommand w = .squeeze i) → s.phase = .idle ∨ s.phase = .absorb → step s = .next
      { s with host := l, fcode := .seqSqueeze, phase := .fault, rsps := s.rsps ++ [0x400#12] }) ∧
    (∀ t, step s = .next t → t.phase = .fault →
      (∃ v, decodeCommand w = .illegal v) ∨
      ((∃ d, decodeCommand w = .absorb d) ∧ (s.phase = .idle ∨ s.phase = .done)) ∨
      (decodeCommand w = .final ∧ (s.phase = .idle ∨ s.phase = .done)) ∨
      ((∃ i, decodeCommand w = .squeeze i) ∧ (s.phase = .idle ∨ s.phase = .absorb)))

/-- R183: the priority of faults: in FAULT nothing is raised; a word that is no command is ILLEGAL_CMD in every other phase,
`0x420` in ABSORB among them. -/
def Obligations.DecodeCheckComesBeforeThePhaseCheck : Prop :=
  ∀ (s : State) (w : Command) (l : List HostEvent), s.busy = false → s.host = .word w :: l →
    (s.phase = .fault → ∀ t, step s = .next t → t.fcode = s.fcode ∧ t.phase = .fault) ∧
    (s.phase ≠ .fault → legalWord w = false → ∀ t, step s = .next t → t.fcode = .illegalCmd ∧ t.phase = .fault) ∧
    (s.phase ≠ .fault → legalWord w = true → ∀ t, step s = .next t → t.fcode ≠ s.fcode →
      t.fcode = .seqAbsorb ∨ t.fcode = .seqFinal ∨ t.fcode = .seqSqueeze) ∧
    (s.phase = .absorb → w = 0x420#12 → ∃ t, step s = .next t ∧ t.fcode = .illegalCmd ∧ t.phase = .fault)

/-- R184: in FAULT no command changes any register: every word but STATUS is answered `(fcode, 0x00)`, STATUS
`(0x0, {fcode, 00, 11})`. -/
def Obligations.FaultRefusesEveryWordButStatus : Prop :=
  ∀ (s : State) (w : Command) (l : List HostEvent), s.busy = false → s.phase = .fault → s.host = .word w :: l →
    (w ≠ 0x500#12 → step s = .next
      { s with host := l, rsps := s.rsps ++ [BitVec.ofNat 12 (256 * s.fcode.code.toNat)] }) ∧
    (w = 0x500#12 → step s = .next
      { s with host := l, rsps := s.rsps ++ [BitVec.ofNat 12 (16 * s.fcode.code.toNat + 3)] })

/-- R185, R26: whatever the host does but reset, and however long, FAULT stays and `fcode` names the first fault, with `S` and
`pos` as they were; a reset leaves FAULT and clears `fcode`. -/
def Obligations.OnlyResetLeavesFault : Prop :=
  (∀ (n : Nat) (s : State), s.busy = false → s.phase = .fault → (∀ e ∈ s.host, e.isReset = false) →
    ∃ t : State, Sys2Proof.core.run n s = .next t ∧ t.phase = .fault ∧ t.fcode = s.fcode ∧ t.S = s.S ∧
      t.pos = s.pos ∧ t.busy = false) ∧
  ∀ s : State, ∃ t, exec .reset s = .next t ∧ t.phase = .idle ∧ t.fcode = .none

/-- R193 with R184: a response with a nonzero status is given exactly when the command raised a fault or found the core in
FAULT, but for STATUS, which R184 answers OK there; and no run without a reset clears a recorded fault. -/
def Obligations.GoneWrongIsSeenAndNeverCleared : Prop :=
  (∀ (s : State) (w : Command) (l : List HostEvent), s.Inv → s.busy = false → s.level = .command →
    s.host = .word w :: l → ∃ t r, step s = .next t ∧ t.rsps = s.rsps ++ [r] ∧
      (statusCode r ≠ 0#4 ↔ t.phase = .fault ∧ (s.phase ≠ .fault ∨ w ≠ 0x500#12)) ∧
      (s.goneWrong ↔ s.fcode ≠ .none)) ∧
  ∀ (n : Nat) (s : State), s.Inv → (∀ e ∈ s.host, e.isReset = false) →
    ∃ t : State, Sys2Proof.core.run n s = .next t ∧ (t.fcode = .none → s.fcode = .none)

/-- R64, R65: every word accepted by the command-level machine gets exactly one response: its status is 0 or a fault's code,
nonzero only if the core is in FAULT after it and then the stored `fcode`; its data is the digest byte of a served SQUEEZE,
the byte of a STATUS, and `0x00` otherwise. -/
def Obligations.EveryWordGetsOneResponse : Prop :=
  ∀ (s : State) (w : Command) (l : List HostEvent), s.busy = false → s.level = .command → s.host = .word w :: l →
    ∃ t r, step s = .next t ∧ t.rsps = s.rsps ++ [r] ∧ r = statusCode r ++ dataByte r ∧ (statusCode r).toNat ≤ 4 ∧
      (statusCode r ≠ 0#4 → t.phase = .fault ∧ statusCode r = t.fcode.code ∧ dataByte r = 0#8) ∧
      (∀ i, decodeCommand w = .squeeze i → s.phase = .done → r = 0#4 ++ decodeByte s.S i) ∧
      (decodeCommand w = .status → r = 0#4 ++ s.statusByte) ∧
      (decodeCommand w ≠ .status → (s.phase ≠ .done ∨ ∀ i, decodeCommand w ≠ .squeeze i) → dataByte r = 0#8)

/-! ## Reset and invariants -/

/-- R32: every register after reset, and the reset event (R200) from any state, busy or not: the same registers, no response,
and the core ready; a reset comes at once. What else the reset leaves is the model's choice, in
HashThenDigestIsTheOneShotHash. -/
def Obligations.ResetGivesEveryRegisterItsValue : Prop :=
  ((∀ i : Fin 64, State.reset.S[i.val] = 0#4) ∧ State.reset.pos = 0#5 ∧ State.reset.phase = .idle ∧
    State.reset.fcode = .none ∧ State.reset.busy = false ∧ State.reset.rnd = 0#4 ∧ State.reset.stage = 0#2 ∧
    State.reset.fin = false ∧ State.reset.statusByte = 0x00#8) ∧
  (∀ s : State, ∃ t : State, exec .reset s = .next t ∧ t.S = State.reset.S ∧ t.pos = 0#5 ∧ t.phase = .idle ∧
    t.fcode = .none ∧ t.busy = false ∧ t.rnd = 0#4 ∧ t.stage = 0#2 ∧ t.fin = false ∧ t.rsps = s.rsps) ∧
  ∀ (s : State) (l : List HostEvent), s.host = .resetNow :: l → step s = exec .reset { s with host := l }

/-- R211: a reset after any number of micro-steps of a running Permutation, before its end, leaves the registers of reset and
no response: the command is abandoned. That the micro-steps before it are counted by `wait`, and what is not a register of the
core stays, is the model's choice (log entry 8). -/
def Obligations.ResetAbandonsARunningCommand : Prop :=
  ∀ (s : State) (k : Nat) (l : List HostEvent), s.busy = true → k + 4 * s.rnd.toNat + s.stage.toNat < 64 →
    s.host = List.replicate k .wait ++ .resetNow :: l →
    Sys2Proof.core.run (k + 1) s = .next
      { State.reset with level := s.level, host := l, rsps := s.rsps, value := s.value }

/-- R33 at reset. -/
def Obligations.InvariantHoldsAtReset : Prop := State.reset.Inv

/-- R33: every step from every state that meets the invariants leads to one that does; so does every operation. -/
def Obligations.InvariantIsKept : Prop :=
  (∀ (i : Instr) (s t : State), s.Inv → exec i s = .next t → t.Inv) ∧
  ∀ s t : State, s.Inv → step s = .next t → t.Inv

/-- No step and no operation changes which of the two machines the core is (the model's choice, log entry 1). -/
def Obligations.LevelNeverChanges : Prop :=
  (∀ (i : Instr) (s t : State), exec i s = .next t → t.level = s.level) ∧
  ∀ s t : State, step s = .next t → t.level = s.level

/-! ## Sessions -/

/-- R24: after START and `n` ABSORB commands `pos` is `2n mod 32`. -/
def Obligations.PosCountsTheOpenBlock : Prop :=
  ∀ (s : State) (ds : List Byte) (l : List HostEvent), s.ready → s.level = .command →
    s.host = (.word 0x100#12 :: ds.map fun d => .word (0x200#12 + d.setWidth 12)) ++ l →
    ∃ t : State, Sys2Proof.core.run (ds.length + 1) s = .next t ∧ t.pos.toNat = 2 * ds.length % 32 ∧
      t.phase = .absorb ∧ t.host = l

/-- R156: the session theorem: START, the ABSORB commands of a message and FINAL, STATUS commands anywhere between, from any
phase but FAULT: every response is OK, the core ends in DONE with `pos = 0`, and SQUEEZE then reads the bytes of `Hash(M)`.
On the command-level machine; the refined one answers alike by RefinedMachineIsIndistinguishable. -/
def Obligations.SessionComputesTheHash : Prop :=
  ∀ (s : State) (m : List Byte) (ws : List Command) (l : List HostEvent), s.ready → s.level = .command →
    ws.head? = some 0x100#12 →
    ws.filter (fun w => w != 0x500#12) =
      [0x100#12] ++ m.map (fun d => 0x200#12 + d.setWidth 12) ++ [0x300#12] →
    s.host = ws.map .word ++ l →
    ∃ (t : State) (rs : List Response), Sys2Proof.core.run ws.length s = .next t ∧ t.host = l ∧
      t.phase = .done ∧ t.pos = 0#5 ∧ t.busy = false ∧ t.rsps = s.rsps ++ rs ∧ rs.length = ws.length ∧
      (∀ r ∈ rs, statusCode r = 0#4) ∧ t.S = hashState m ∧
      ∀ i : BitVec 5, ∃ b, (hashMessage m)[i.toNat]? = some b ∧
        exec (.squeeze i) t = .next { t with rsps := t.rsps ++ [0#4 ++ b] }

/-- R69: the pseudo-commands and what they stand for; `HASH` followed by `DIGEST` is the one-shot hash: the last 32 responses
are OK and the bytes of `Hash(M)`. That each pseudo-command takes a step to be expanded (log entry 14), and what a reset leaves
beside the registers of the core (log entry 8), is the model's choice. -/
def Obligations.HashThenDigestIsTheOneShotHash : Prop :=
  (∀ (m : List Byte) (s : State), exec (.hashScript m) s = .next { s with
    host := .word 0x100#12 :: (m.map fun d => .word (BitVec.ofNat 12 (0x200 + d.toNat))) ++
      .word 0x300#12 :: s.host }) ∧
  (∀ s : State, exec .digest s = .next { s with
    host := ((List.range 32).map fun i => .word (BitVec.ofNat 12 (0x400 + i))) ++ s.host }) ∧
  (∀ s : State, exec .reset s = .next
    { State.reset with level := s.level, host := s.host, rsps := s.rsps, value := s.value }) ∧
  ∀ (s : State) (m : List Byte) (l : List HostEvent), s.ready → s.level = .command →
    s.host = .hash m :: .digest :: l →
    ∃ t : State, Sys2Proof.core.run (m.length + 36) s = .next t ∧ t.host = l ∧ t.phase = .done ∧
      t.rsps = s.rsps ++ List.replicate (m.length + 2) 0x000#12 ++ (hashMessage m).map (fun b => 0#4 ++ b)

/-- R146: the digest of a session does not depend on anything before its START: from any two states, the same command words
from START on leave the same `S`, `pos`, `phase` and `fcode` and give the same responses, on either machine and however many steps are
run. -/
def Obligations.NothingSurvivesAStart : Prop :=
  ∀ (s₁ s₂ : State) (ws : List Command), s₁.Inv → s₂.Inv → s₁.ready → s₂.ready → s₁.level = s₂.level →
    s₁.host = .word 0x100#12 :: ws.map .word → s₂.host = s₁.host → ∀ n : Nat,
    ∃ (t₁ t₂ : State) (rs : List Response), Sys2Proof.core.run (n + 1) s₁ = .next t₁ ∧
      Sys2Proof.core.run (n + 1) s₂ = .next t₂ ∧ t₁.rsps = s₁.rsps ++ rs ∧ t₂.rsps = s₂.rsps ++ rs ∧
      t₁.S = t₂.S ∧ t₁.pos = t₂.pos ∧ t₁.phase = t₂.phase ∧ t₁.fcode = t₂.fcode

/-- R158: outside DONE no step answers anything that depends on `S`, and changes nothing but `S` by it; in DONE, until START or
a reset, `S` does not change. -/
def Obligations.NoIntermediateStateIsVisible : Prop :=
  (∀ (s t : State) (S' : NibState), s.phase ≠ .done → step s = .next t →
    ∃ t', step { s with S := S' } = .next t' ∧ t' = { t with S := t'.S }) ∧
  ∀ s t : State, s.busy = false → s.phase = .done → step s = .next t → t.phase = .done ∨ t.phase = .fault → t.S = s.S

/-- R207, R44: in DONE any sequence of SQUEEZE and STATUS commands leaves every register, so the digest stays readable. -/
def Obligations.DigestStaysReadable : Prop :=
  ∀ (s : State) (ws : List Command) (l : List HostEvent), s.busy = false → s.phase = .done →
    (∀ w ∈ ws, decodeCommand w = .status ∨ ∃ i, decodeCommand w = .squeeze i) → s.host = ws.map .word ++ l →
    ∃ rs : List Response, rs.length = ws.length ∧
      Sys2Proof.core.run ws.length s = .next { s with host := l, rsps := s.rsps ++ rs }

/-! ## The refined machine -/

/-- R159: where the command-level machine runs the Permutation, the refined one starts the sequencer and does not answer yet;
while it is busy no word is accepted, and the word stays at the port. -/
def Obligations.StartingAPermutationMakesTheCoreBusy : Prop :=
  (∀ (d : Byte) (s : State), s.busy = false → s.phase = .absorb → s.level = .micro → s.pos = 30#5 →
    ∃ T : NibState, T[30] = add16 s.S[30] (BitVec.ofNat 4 (d.toNat / 16)) ∧
      T[31] = add16 s.S[31] (BitVec.ofNat 4 (d.toNat % 16)) ∧
      (∀ j : Fin 64, j.val ≠ 30 → j.val ≠ 31 → T[j.val] = s.S[j.val]) ∧
      exec (.absorb d) s = .next { s with S := T, busy := true, rnd := 0#4, stage := 0#2, fin := false }) ∧
  (∀ s : State, s.busy = false → s.phase = .absorb → s.level = .micro →
    exec .final s = .next
      { s with S := padInPlace s.S s.pos, busy := true, rnd := 0#4, stage := 0#2, fin := true }) ∧
  ∀ (s : State) (w : Command) (l : List HostEvent), s.busy = true →
    s.host = .word w :: l → ∃ t, step s = .next t ∧ t.host = .word w :: l ∧ step s = exec (decode (.stage s.stage)) s

/-- R160, R161: one micro-step of a busy core: the layer of `stage` on the whole state, then the counted loop. -/
def Obligations.MicroStepAppliesOneLayer : Prop :=
  ∀ (s : State) (T : NibState), s.busy = true → (∀ e ∈ s.host, e.waits = true) →
    T = (if s.stage = 0#2 then subNibbles s.S else if s.stage = 1#2 then permuteNibbles s.S
         else if s.stage = 2#2 then mixColumns s.S else addConstant s.rnd s.S) →
    (s.stage ≠ 3#2 → step s = .next { s with S := T, stage := s.stage + 1#2 }) ∧
    (s.stage = 3#2 → s.rnd ≠ 15#4 → step s = .next { s with S := T, rnd := s.rnd + 1#4, stage := 0#2 }) ∧
    (s.stage = 3#2 → s.rnd = 15#4 → s.fin = true → step s = .next
      { s with S := T, busy := false, rnd := 0#4, stage := 0#2, pos := 0#5, phase := .done, fin := false,
               rsps := s.rsps ++ [0x000#12] }) ∧
    (s.stage = 3#2 → s.rnd = 15#4 → s.fin = false → step s = .next
      { s with S := T, busy := false, rnd := 0#4, stage := 0#2, pos := 0#5, rsps := s.rsps ++ [0x000#12] })

/-- R162, R161: from the start of a Permutation exactly 64 micro-steps give what `Permutation(S)` gives, the response with the
last of them and no sooner. -/
def Obligations.SixtyFourMicroStepsAreThePermutation : Prop :=
  ∀ s : State, s.busy = true → s.rnd = 0#4 → s.stage = 0#2 → (∀ e ∈ s.host, e.waits = true) →
    Sys2Proof.core.run 64 s = .next
      { s with S := permutation s.S, busy := false, pos := 0#5, phase := if s.fin then .done else s.phase,
               fin := false, rsps := s.rsps ++ [0x000#12] } ∧
    ∀ n : Nat, n < 64 → ∃ t : State, Sys2Proof.core.run n s = .next t ∧ t.busy = true ∧ t.rsps = s.rsps ∧
      t.host = s.host

/-- R162: the refinement changes nothing a host can see: for any command words from any state at rest the refined machine
comes to the state of the command-level machine, with the same responses. That one state holds either machine is the model's
choice (log entry 1). -/
def Obligations.RefinedMachineIsIndistinguishable : Prop :=
  ∀ (s : State) (ws : List Command), s.busy = false → s.rnd = 0#4 → s.stage = 0#2 → s.fin = false →
    ∃ (t : State) (n : Nat),
      Sys2Proof.core.run ws.length { s with level := .command, host := ws.map .word } =
        .next { t with level := .command } ∧
      Sys2Proof.core.run n { s with level := .micro, host := ws.map .word } = .next { t with level := .micro } ∧
      t.host = [] ∧ t.busy = false ∧ n ≤ 65 * ws.length

/-! ## Scripts -/

/-- R68, R69, R71: every kind of line of a script: the five mnemonics, with a hex operand at every value of a byte and a decimal
operand that is an error of the script when it is out of range; a raw word and a stated response at every value of 12 bits;
the three pseudo-commands, HASH with the hex digits of any message; a comment; the bytes of a hex string; and one line after
another. How the words of a line are set apart, that a line may hold no command, and that a stated response is no act of the
host is the model's choice (log entry 20). -/
def Obligations.ScriptLinesAreRead : Prop :=
  (∀ a b : Nib, parseLine ['A', 'B', 'S', 'O', 'R', 'B', ' ', '0', 'x', hexDigit a, hexDigit b] =
    some ⟨some (.word (0x2#4 ++ a ++ b)), none⟩) ∧
  (∀ a b c : Nib, parseLine ['.', 'w', 'o', 'r', 'd', ' ', '0', 'x', hexDigit a, hexDigit b, hexDigit c] =
    some ⟨some (.word (a ++ b ++ c)), none⟩) ∧
  (∀ a b c : Nib, parseLine ['S', 'T', 'A', 'R', 'T', ' ', '-', '>', ' ', hexDigit a, hexDigit b, hexDigit c] =
    some ⟨some (.word 0x100#12), some (a ++ b ++ c)⟩) ∧
  (∀ t u : Fin 10, parseLine ['S', 'Q', 'U', 'E', 'E', 'Z', 'E', ' ', Char.ofNat (48 + t.val), Char.ofNat (48 + u.val)] =
    if 10 * t.val + u.val < 32 then some ⟨some (.word (BitVec.ofNat 12 (0x400 + 10 * t.val + u.val))), none⟩ else none) ∧
  parseLine ['F', 'I', 'N', 'A', 'L'] = some ⟨some (.word 0x300#12), none⟩ ∧
  parseLine ['S', 'T', 'A', 'T', 'U', 'S'] = some ⟨some (.word 0x500#12), none⟩ ∧
  parseLine ['D', 'I', 'G', 'E', 'S', 'T'] = some ⟨some .digest, none⟩ ∧
  parseLine ['R', 'E', 'S', 'E', 'T'] = some ⟨some .reset, none⟩ ∧
  parseLine ['H', 'A', 'S', 'H'] = some ⟨some (.hash []), none⟩ ∧
  (∀ m : List Byte, parseLine (['H', 'A', 'S', 'H', ' '] ++ (encodeMessage m).map hexDigit) =
    some ⟨some (.hash m), none⟩) ∧
  (∀ cs : List Char, parseLine ('#' :: cs) = some ⟨none, none⟩) ∧
  (∀ m : List Byte, hexBytes ((encodeMessage m).map hexDigit) = some m) ∧
  ∀ (xs ys : List (List Char)) (us vs : List HostEvent), assemble xs = some us → assemble ys = some vs →
    assemble (xs ++ ys) = some (us ++ vs)
end

