-- ==== Sys2Proof/Laws/Layers.lean ====
section
/-! SUPPORT. What each layer and each codec function does, nibble by nibble: the lemma to cite instead of unfolding it. -/

namespace Sys2Proof.Machine

@[simp] theorem zeroState_get (i : Nat) (h : i < 64) : zeroState[i] = 0#4 := by
  simp [zeroState]

theorem addAt_get (S : NibState) (i : Fin 64) (v : Nib) (j : Nat) (h : j < 64) :
    (addAt S i v)[j] = if i.val = j then S[j] + v else S[j] := by
  unfold addAt add16
  rw [Vector.getElem_set]
  split <;> simp_all

theorem addAt_get_self (S : NibState) (i : Fin 64) (v : Nib) : (addAt S i v)[i.val] = S[i.val] + v := by
  simp [addAt_get]

theorem addAt_get_other (S : NibState) (i : Fin 64) (v : Nib) (j : Nat) (h : j < 64) (hj : i.val ≠ j) :
    (addAt S i v)[j] = S[j] := by
  simp [addAt_get, hj]

@[simp] theorem subNibbles_get (S : NibState) (i : Nat) (h : i < 64) : (subNibbles S)[i] = sbox S[i] := by
  simp [subNibbles]

theorem invPerm_perm : ∀ i, invPerm (perm i) = i := by decide

theorem perm_invPerm : ∀ i, perm (invPerm i) = i := by decide

theorem perm_injective (i j : Fin 64) (h : perm i = perm j) : i = j := by
  rw [← invPerm_perm i, h, invPerm_perm]

theorem foldl_scatter_length_get (S : NibState) (l : List (Fin 64)) (T : NibState) (j : Fin 64) :
    (l.foldl (fun T i => T.set (perm i).val S[i.val]) T)[(perm j).val]
      = if j ∈ l then S[j.val] else T[(perm j).val] := by
  induction l generalizing T with
  | nil => simp
  | cons a l ih =>
    rw [List.foldl_cons, ih, Vector.getElem_set]
    by_cases hjl : j ∈ l
    · simp [hjl]
    · by_cases hja : j = a
      · subst hja
        simp [hjl]
      · have hne : (perm a).val ≠ (perm j).val := fun h =>
          hja (perm_injective j a (Fin.ext h.symm))
        simp [hjl, hja, hne]

/-- A nibble moves to its destination (R101). -/
theorem permuteNibbles_dest (S : NibState) (i : Fin 64) : (permuteNibbles S)[(perm i).val] = S[i.val] := by
  have h := foldl_scatter_length_get S (List.finRange 64) zeroState i
  rw [if_pos (List.mem_finRange i)] at h
  exact h

/-- Where the nibble that arrives at `j` comes from (R101). -/
theorem permuteNibbles_get (S : NibState) (j : Fin 64) : (permuteNibbles S)[j.val] = S[(invPerm j).val] := by
  have h := permuteNibbles_dest S (invPerm j)
  simpa [perm_invPerm] using h

theorem mixColumns_get (S : NibState) (i : Fin 64) :
    (mixColumns S)[i.val] = below S i 0 + below S i 1 + (below S i 2 + below S i 3) := by
  simp [mixColumns, add16]

theorem addConstant_get (r : BitVec 4) (S : NibState) (j : Nat) (h : j < 64) :
    (addConstant r S)[j] = if 63 = j then S[j] + rc r else S[j] := by
  unfold addConstant
  rw [addAt_get]
  rfl

theorem absorbBlock_get (S : NibState) (p : Block) (j : Nat) (h : j < 64) :
    (absorbBlock S p)[j] = if hj : j < 32 then S[j] + p[j] else S[j] := by
  simp [absorbBlock, add16]

theorem padInPlace_get (S : NibState) (pos : BitVec 5) (j : Nat) (h : j < 64) :
    (padInPlace S pos)[j]
      = S[j] + (if pos.toNat = j then 8#4 else 0#4) + (if 31 = j then 1#4 else 0#4) := by
  unfold padInPlace
  rw [addAt_get, addAt_get]
  simp only [Fin.val_castLE, BitVec.val_toFin]
  split <;> split <;> simp_all

@[simp] theorem permutationN_zero (S : NibState) : permutationN 0 S = S := rfl

@[simp] theorem permutationN_succ (n : Nat) (S : NibState) :
    permutationN (n + 1) S = oneRound (BitVec.ofNat 4 n) (permutationN n S) := rfl

theorem hiNibble_toNat (b : Byte) : (hiNibble b).toNat = b.toNat / 16 := by
  simp [hiNibble, BitVec.extractLsb', Nat.shiftRight_eq_div_pow]
  omega

theorem loNibble_toNat (b : Byte) : (loNibble b).toNat = b.toNat % 16 := by
  simp [loNibble, BitVec.extractLsb']

@[simp] theorem encodeMessage_nil : encodeMessage [] = [] := rfl

@[simp] theorem encodeMessage_cons (b : Byte) (m : List Byte) :
    encodeMessage (b :: m) = hiNibble b :: loNibble b :: encodeMessage m := rfl

@[simp] theorem decodeDigest_length (S : NibState) : (decodeDigest S).length = 32 := by
  simp [decodeDigest, Config.digestBytes]

@[simp] theorem absorbBlocks_zero (q : List Nib) : absorbBlocks q 0 = zeroState := rfl

theorem absorbBlocks_succ (q : List Nib) (b : Nat) :
    absorbBlocks q (b + 1) = permutation (absorbBlock (absorbBlocks q b) (blockAt q b)) := by
  simp [absorbBlocks, List.range_succ]

end Sys2Proof.Machine
end

