-- ==== Sys2Proof/Laws/State.lean ====
section
/-! SUPPORT. One lemma per field for each update of State that the meanings share, each true by rfl, so that no proof
unfolds a record update. -/

namespace Sys2Proof.Machine

@[simp] theorem State.respond_S (s : State) (st : BitVec 4) (d : Byte) : (s.respond st d).S = s.S := rfl
@[simp] theorem State.respond_pos (s : State) (st : BitVec 4) (d : Byte) : (s.respond st d).pos = s.pos := rfl
@[simp] theorem State.respond_phase (s : State) (st : BitVec 4) (d : Byte) : (s.respond st d).phase = s.phase := rfl
@[simp] theorem State.respond_fcode (s : State) (st : BitVec 4) (d : Byte) : (s.respond st d).fcode = s.fcode := rfl
@[simp] theorem State.respond_busy (s : State) (st : BitVec 4) (d : Byte) : (s.respond st d).busy = s.busy := rfl
@[simp] theorem State.respond_rnd (s : State) (st : BitVec 4) (d : Byte) : (s.respond st d).rnd = s.rnd := rfl
@[simp] theorem State.respond_stage (s : State) (st : BitVec 4) (d : Byte) : (s.respond st d).stage = s.stage := rfl
@[simp] theorem State.respond_fin (s : State) (st : BitVec 4) (d : Byte) : (s.respond st d).fin = s.fin := rfl
@[simp] theorem State.respond_level (s : State) (st : BitVec 4) (d : Byte) : (s.respond st d).level = s.level := rfl
@[simp] theorem State.respond_host (s : State) (st : BitVec 4) (d : Byte) : (s.respond st d).host = s.host := rfl
@[simp] theorem State.respond_rsps (s : State) (st : BitVec 4) (d : Byte) : (s.respond st d).rsps = s.rsps ++ [responseWord st d] := rfl
@[simp] theorem State.respond_value (s : State) (st : BitVec 4) (d : Byte) : (s.respond st d).value = s.value := rfl

@[simp] theorem State.raiseFault_S (s : State) (c : FaultCode) : (s.raiseFault c).S = s.S := rfl
@[simp] theorem State.raiseFault_pos (s : State) (c : FaultCode) : (s.raiseFault c).pos = s.pos := rfl
@[simp] theorem State.raiseFault_phase (s : State) (c : FaultCode) : (s.raiseFault c).phase = .fault := rfl
@[simp] theorem State.raiseFault_fcode (s : State) (c : FaultCode) : (s.raiseFault c).fcode = c := rfl
@[simp] theorem State.raiseFault_busy (s : State) (c : FaultCode) : (s.raiseFault c).busy = s.busy := rfl
@[simp] theorem State.raiseFault_rnd (s : State) (c : FaultCode) : (s.raiseFault c).rnd = s.rnd := rfl
@[simp] theorem State.raiseFault_stage (s : State) (c : FaultCode) : (s.raiseFault c).stage = s.stage := rfl
@[simp] theorem State.raiseFault_fin (s : State) (c : FaultCode) : (s.raiseFault c).fin = s.fin := rfl
@[simp] theorem State.raiseFault_level (s : State) (c : FaultCode) : (s.raiseFault c).level = s.level := rfl
@[simp] theorem State.raiseFault_host (s : State) (c : FaultCode) : (s.raiseFault c).host = s.host := rfl
@[simp] theorem State.raiseFault_rsps (s : State) (c : FaultCode) : (s.raiseFault c).rsps = s.rsps ++ [responseWord c.code 0x00#8] := rfl
@[simp] theorem State.raiseFault_value (s : State) (c : FaultCode) : (s.raiseFault c).value = s.value := rfl

@[simp] theorem State.resetEvent_S (s : State) : (s.resetEvent).S = Vector.replicate 64 0#4 := rfl
@[simp] theorem State.resetEvent_pos (s : State) : (s.resetEvent).pos = 0#5 := rfl
@[simp] theorem State.resetEvent_phase (s : State) : (s.resetEvent).phase = .idle := rfl
@[simp] theorem State.resetEvent_fcode (s : State) : (s.resetEvent).fcode = .none := rfl
@[simp] theorem State.resetEvent_busy (s : State) : (s.resetEvent).busy = false := rfl
@[simp] theorem State.resetEvent_rnd (s : State) : (s.resetEvent).rnd = 0#4 := rfl
@[simp] theorem State.resetEvent_stage (s : State) : (s.resetEvent).stage = 0#2 := rfl
@[simp] theorem State.resetEvent_fin (s : State) : (s.resetEvent).fin = false := rfl
@[simp] theorem State.resetEvent_level (s : State) : (s.resetEvent).level = s.level := rfl
@[simp] theorem State.resetEvent_host (s : State) : (s.resetEvent).host = s.host := rfl
@[simp] theorem State.resetEvent_rsps (s : State) : (s.resetEvent).rsps = s.rsps := rfl
@[simp] theorem State.resetEvent_value (s : State) : (s.resetEvent).value = s.value := rfl

@[simp] theorem State.giveWords_S (s : State) (ws : List Command) : (s.giveWords ws).S = s.S := rfl
@[simp] theorem State.giveWords_pos (s : State) (ws : List Command) : (s.giveWords ws).pos = s.pos := rfl
@[simp] theorem State.giveWords_phase (s : State) (ws : List Command) : (s.giveWords ws).phase = s.phase := rfl
@[simp] theorem State.giveWords_fcode (s : State) (ws : List Command) : (s.giveWords ws).fcode = s.fcode := rfl
@[simp] theorem State.giveWords_busy (s : State) (ws : List Command) : (s.giveWords ws).busy = s.busy := rfl
@[simp] theorem State.giveWords_rnd (s : State) (ws : List Command) : (s.giveWords ws).rnd = s.rnd := rfl
@[simp] theorem State.giveWords_stage (s : State) (ws : List Command) : (s.giveWords ws).stage = s.stage := rfl
@[simp] theorem State.giveWords_fin (s : State) (ws : List Command) : (s.giveWords ws).fin = s.fin := rfl
@[simp] theorem State.giveWords_level (s : State) (ws : List Command) : (s.giveWords ws).level = s.level := rfl
@[simp] theorem State.giveWords_host (s : State) (ws : List Command) : (s.giveWords ws).host = ws.map .word ++ s.host := rfl
@[simp] theorem State.giveWords_rsps (s : State) (ws : List Command) : (s.giveWords ws).rsps = s.rsps := rfl
@[simp] theorem State.giveWords_value (s : State) (ws : List Command) : (s.giveWords ws).value = s.value := rfl

end Sys2Proof.Machine
end

