-- ==== Sys2Proof/Laws/Ops.lean ====
section
/-! SUPPORT. What the shared operations over State can do, one lemma each, and what a step can be. -/

namespace Sys2Proof.Machine

/-- `serve` in full: the word waits, or is refused with the stored code, or the command runs. -/
theorem serve_cases (s : State) (f : State → State) :
    (s.busy = true ∧ s.serve f = .next s) ∨
    (s.busy = false ∧ s.phase = .fault ∧ s.serve f = .next (s.respond s.fcode.code 0x00#8)) ∨
    (s.busy = false ∧ s.phase ≠ .fault ∧ s.serve f = .next (f s)) := by
  unfold State.serve
  cases hb : s.busy <;> by_cases hp : s.phase = .fault <;> simp [hp]

theorem serve_ready (s : State) (f : State → State) (h : s.ready) : s.serve f = .next (f s) := by
  obtain ⟨hb, hp⟩ := h
  simp [State.serve, hb, hp]

theorem serve_busy (s : State) (f : State → State) (h : s.busy = true) : s.serve f = .next s := by
  simp [State.serve, h]

theorem serve_fault (s : State) (f : State → State) (hb : s.busy = false) (h : s.phase = .fault) :
    s.serve f = .next (s.respond s.fcode.code 0x00#8) := by
  simp [State.serve, hb, h]

/-- Closing a block on the command-level machine. -/
theorem closeBlock_command (s : State) (f : Bool) (h : s.level = .command) :
    s.closeBlock f =
      State.respond { s with S := permutation s.S, pos := 0#5, phase := if f then .done else s.phase } 0x0#4 0x00#8 := by
  simp [State.closeBlock, h]

/-- Closing a block on the refined machine. -/
theorem closeBlock_micro (s : State) (f : Bool) (h : s.level = .micro) :
    s.closeBlock f = { s with busy := true, rnd := 0#4, stage := 0#2, fin := f } := by
  simp [State.closeBlock, h]

theorem advance_idle (s : State) (h : s.busy = false) : s.advance = s := by
  simp [State.advance, h]

theorem advance_stage (s : State) (h : s.busy = true) (hs : s.stage ≠ 3#2) :
    s.advance = { s with stage := s.stage + 1#2 } := by
  simp [State.advance, h, hs]

theorem advance_round (s : State) (h : s.busy = true) (hs : s.stage = 3#2) (hr : s.rnd ≠ 15#4) :
    s.advance = { s with rnd := s.rnd + 1#4, stage := 0#2 } := by
  simp [State.advance, h, hs, hr]

theorem advance_last (s : State) (h : s.busy = true) (hs : s.stage = 3#2) (hr : s.rnd = 15#4) :
    s.advance =
      State.respond
        { s with
          busy := false, rnd := 0#4, stage := 0#2, pos := 0#5, phase := if s.fin then .done else s.phase, fin := false }
        0x0#4 0x00#8 := by
  simp [State.advance, h, hs, hr]

/-- Everything a step can be. In each case it runs on a state that differs at most in what the host has left to do. -/
theorem step_cases (s : State) :
    (s.busy = false ∧ ∃ h, step s = .next { s with host := h }) ∨
    (s.busy = true ∧ ∃ h, step s = exec (decodeStage s.stage) { s with host := h }) ∨
    (s.busy = false ∧ ∃ w h, step s = exec (decodeCommand w) { s with host := h }) ∨
    (s.busy = false ∧ ∃ m h, step s = exec (.hashScript m) { s with host := h }) ∨
    (s.busy = false ∧ ∃ h, step s = exec .digest { s with host := h }) ∨
    (∃ h, step s = exec .reset { s with host := h }) := by
  have own : s.busy = true → ∀ t, s.fetch = (s.ownStep, t) → step s = exec (decodeStage s.stage) t := by
    intro hb t ht
    simp only [step, ht, State.ownStep, hb, if_true]
  have rest : s.busy = false → ∀ t, s.fetch = (s.ownStep, t) → step s = .next t := by
    intro hb t ht
    simp only [step, ht, State.ownStep, hb]
    simp
  rcases Bool.eq_false_or_eq_true s.busy with hb | hb
  · rcases hh : s.host with _ | ⟨e, l⟩
    · exact .inr (.inl ⟨hb, s.host, own hb s (by simp [State.fetch, hh])⟩)
    · cases e with
      | wait => exact .inr (.inl ⟨hb, l, own hb _ (by simp [State.fetch, hh])⟩)
      | resetNow => exact .inr (.inr (.inr (.inr (.inr ⟨l, by simp [step, State.fetch, hh]⟩))))
      | word w => exact .inr (.inl ⟨hb, s.host, own hb s (by simp [State.fetch, hh, hb])⟩)
      | hash m => exact .inr (.inl ⟨hb, s.host, own hb s (by simp [State.fetch, hh, hb])⟩)
      | digest => exact .inr (.inl ⟨hb, s.host, own hb s (by simp [State.fetch, hh, hb])⟩)
      | reset => exact .inr (.inl ⟨hb, s.host, own hb s (by simp [State.fetch, hh, hb])⟩)
  · rcases hh : s.host with _ | ⟨e, l⟩
    · exact .inl ⟨hb, s.host, rest hb s (by simp [State.fetch, hh])⟩
    · cases e with
      | wait => exact .inl ⟨hb, l, rest hb _ (by simp [State.fetch, hh])⟩
      | resetNow => exact .inr (.inr (.inr (.inr (.inr ⟨l, by simp [step, State.fetch, hh]⟩))))
      | word w => exact .inr (.inr (.inl ⟨hb, w, l, by simp [step, State.fetch, hh, hb]⟩))
      | hash m => exact .inr (.inr (.inr (.inl ⟨hb, m, l, by simp [step, State.fetch, hh, hb]⟩)))
      | digest => exact .inr (.inr (.inr (.inr (.inl ⟨hb, l, by simp [step, State.fetch, hh, hb]⟩))))
      | reset => exact .inr (.inr (.inr (.inr (.inr ⟨l, by simp [step, State.fetch, hh, hb]⟩))))

end Sys2Proof.Machine
end

