-- ==== Sys2Proof/Laws/Commands.lean ====
section
/-! SUPPORT. What each command does once the port serves it, case by case. -/

namespace Sys2Proof.Machine

theorem absorbCommand_open (d : Byte) (s : State) (h : s.phase = .absorb) (hp : s.pos ≠ 30#5) :
    absorbCommand d s =
      State.respond
        { s with
          S := addAt (addAt s.S (rateIndex s.pos) (hiNibble d)) (rateIndex (s.pos + 1#5)) (loNibble d),
          pos := s.pos + 2#5 }
        0x0#4 0x00#8 := by
  simp [absorbCommand, h, hp]

theorem absorbCommand_close (d : Byte) (s : State) (h : s.phase = .absorb) (hp : s.pos = 30#5) :
    absorbCommand d s =
      State.closeBlock
        { s with S := addAt (addAt s.S (rateIndex s.pos) (hiNibble d)) (rateIndex (s.pos + 1#5)) (loNibble d) } false := by
  simp [absorbCommand, h, hp]

theorem absorbCommand_fault (d : Byte) (s : State) (h : s.phase ≠ .absorb) :
    absorbCommand d s = s.raiseFault .seqAbsorb := by
  simp [absorbCommand, h]

theorem finalCommand_absorb (s : State) (h : s.phase = .absorb) :
    finalCommand s = State.closeBlock { s with S := padInPlace s.S s.pos } true := by
  simp [finalCommand, h]

theorem finalCommand_fault (s : State) (h : s.phase ≠ .absorb) : finalCommand s = s.raiseFault .seqFinal := by
  simp [finalCommand, h]

theorem squeezeCommand_done (i : BitVec 5) (s : State) (h : s.phase = .done) :
    squeezeCommand i s = s.respond 0x0#4 (decodeByte s.S i) := by
  simp [squeezeCommand, h]

theorem squeezeCommand_fault (i : BitVec 5) (s : State) (h : s.phase ≠ .done) :
    squeezeCommand i s = s.raiseFault .seqSqueeze := by
  simp [squeezeCommand, h]

theorem execStatus_boundary (s : State) (h : s.busy = false) : execStatus s = .next (s.respond 0x0#4 s.statusByte) := by
  simp [execStatus, h]

end Sys2Proof.Machine
end

