-- ==== Sys2Proof/Laws/Decode.lean ====
section
/-! SUPPORT. What a command word can decode to, and which words decode so. -/

namespace Sys2Proof

theorem opField_toNat (w : Command) : (opField w).toNat = w.toNat / 256 := by
  have := w.isLt
  simp [opField, BitVec.extractLsb', Nat.shiftRight_eq_div_pow]
  omega

theorem argField_toNat (w : Command) : (argField w).toNat = w.toNat % 256 := by
  simp [argField, BitVec.extractLsb']

theorem opField_eq_iff (w : Command) (c : BitVec 4) : opField w = c ↔ w.toNat / 256 = c.toNat := by
  rw [← BitVec.toNat_inj, opField_toNat]

theorem argField_eq_zero_iff (w : Command) : argField w = 0x00#8 ↔ w.toNat % 256 = 0 := by
  rw [← BitVec.toNat_inj, argField_toNat]
  rfl

theorem argHigh_eq_zero_iff (w : Command) : (argField w).extractLsb' 5 3 = 0#3 ↔ w.toNat % 256 < 32 := by
  rw [← BitVec.toNat_inj]
  simp [BitVec.extractLsb', argField_toNat, Nat.shiftRight_eq_div_pow]
  omega

/-- Everything a word can decode to (R67). -/
theorem decodeCommand_cases (w : Command) :
    (w = 0x100#12 ∧ decodeCommand w = .start) ∨
    (∃ d : Byte, w = 0x200#12 + d.setWidth 12 ∧ decodeCommand w = .absorb d) ∨
    (w = 0x300#12 ∧ decodeCommand w = .final) ∨
    (∃ i : BitVec 5, w = 0x400#12 + i.setWidth 12 ∧ decodeCommand w = .squeeze i) ∨
    (w = 0x500#12 ∧ decodeCommand w = .status) ∨
    (legalWord w = false ∧ decodeCommand w = .illegal w) := by
  have hw := w.isLt
  unfold decodeCommand
  simp only [opField_eq_iff, argField_eq_zero_iff, argHigh_eq_zero_iff]
  split
  · rename_i h
    exact .inl ⟨BitVec.eq_of_toNat_eq (by simp at h ⊢; omega), rfl⟩
  split
  · rename_i h
    refine .inr (.inl ⟨_, BitVec.eq_of_toNat_eq ?_, rfl⟩)
    simp [argField_toNat, BitVec.toNat_add] at h ⊢
    omega
  split
  · rename_i h
    exact .inr (.inr (.inl ⟨BitVec.eq_of_toNat_eq (by simp at h ⊢; omega), rfl⟩))
  split
  · rename_i h
    refine .inr (.inr (.inr (.inl ⟨_, BitVec.eq_of_toNat_eq ?_, rfl⟩)))
    simp [BitVec.extractLsb', argField_toNat, BitVec.toNat_add] at h ⊢
    omega
  split
  · rename_i h
    exact .inr (.inr (.inr (.inr (.inl ⟨BitVec.eq_of_toNat_eq (by simp at h ⊢; omega), rfl⟩))))
  · rename_i h₁ h₂ h₃ h₄ h₅
    refine .inr (.inr (.inr (.inr (.inr ⟨?_, rfl⟩))))
    simp [legalWord] at h₁ h₂ h₃ h₄ h₅ ⊢
    omega

@[simp] theorem decodeCommand_start : decodeCommand 0x100#12 = .start := by decide

@[simp] theorem decodeCommand_final : decodeCommand 0x300#12 = .final := by decide

@[simp] theorem decodeCommand_status : decodeCommand 0x500#12 = .status := by decide

@[simp] theorem decodeCommand_absorb (d : Byte) : decodeCommand (0x200#12 + d.setWidth 12) = .absorb d := by
  revert d; decide

@[simp] theorem decodeCommand_squeeze (i : BitVec 5) : decodeCommand (0x400#12 + i.setWidth 12) = .squeeze i := by
  revert i; decide

end Sys2Proof
end

