-- ==== Sys2Proof/Laws/Eval.lean ====
section
/-! SUPPORT. A quick way to evaluate the Permutation: a state as one number, its 64 nibbles the hex digits, first one first
(95_test_vectors.md writes states so), and a round on that number. The lemmas say it is the round of the model. -/

namespace Sys2Proof.Machine

/-- Nibble `k` of a state written as 64 hex digits, the first one nibble 0. -/
def digit (n k : Nat) : Nat := n / 16 ^ (63 - k) % 16

/-- The state written as 64 hex digits (95_test_vectors.md, its opening). -/
def hexState (n : Nat) : NibState := Vector.ofFn fun i : Fin 64 => BitVec.ofNat 4 (digit n i.val)

/-- The number of the hex digits `f 0, f 1, ..., f (len - 1)`. -/
def digits (f : Nat → Nat) : Nat → Nat
  | 0 => 0
  | len + 1 => 16 * digits f len + f len

/-- Nibble `j` after SubNibbles, PermuteNibbles and MixColumns, from a state in hex: the sum over the four rows below in its
column, each the S-box of the nibble that PERM sends there. -/
def mixedDigit (n j : Nat) : Nat :=
  (digit 0xC56B90AD3EF84712 (48 + digit n (8 * (j % 8) + (j / 8 + j % 8) % 8)) +
   digit 0xC56B90AD3EF84712 (48 + digit n (8 * (j % 8) + (j / 8 + j % 8 + 1) % 8)) +
   digit 0xC56B90AD3EF84712 (48 + digit n (8 * (j % 8) + (j / 8 + j % 8 + 2) % 8)) +
   digit 0xC56B90AD3EF84712 (48 + digit n (8 * (j % 8) + (j / 8 + j % 8 + 3) % 8))) % 16

/-- A round on a state in hex; ADDCONSTANT adds into the last digit. -/
def hexRound (r n : Nat) : Nat :=
  16 * digits (mixedDigit n) 63 + (mixedDigit n 63 + digit 0x18CEF7B5AD639421 (48 + r)) % 16

/-- The first `r` rounds on a state in hex. -/
def hexRounds : Nat → Nat → Nat
  | 0, n => n
  | r + 1, n => hexRound r (hexRounds r n)


theorem digit_lt (n k : Nat) : digit n k < 16 := Nat.mod_lt _ (by decide)

theorem digits_digit (f : Nat → Nat) (hf : ∀ k, f k < 16) (len k : Nat) (h : k < len) :
    digits f len / 16 ^ (len - 1 - k) % 16 = f k := by
  induction len with
  | zero => omega
  | succ len ih =>
    by_cases hk : k = len
    · subst hk
      have := hf k
      simp [digits]
      omega
    · have e : len + 1 - 1 - k = (len - 1 - k) + 1 := by omega
      have hl := hf len
      rw [e, Nat.pow_succ', ← Nat.div_div_eq_div_mul, digits, show (16 * digits f len + f len) / 16 = digits f len by omega]
      exact ih (by omega)

@[simp] theorem hexState_get (n i : Nat) (h : i < 64) : (hexState n)[i] = BitVec.ofNat 4 (digit n i) := by
  simp [hexState]

theorem sbox_digit : ∀ v : Fin 16, sbox (BitVec.ofNat 4 v.val) = BitVec.ofNat 4 (digit 0xC56B90AD3EF84712 (48 + v.val)) := by
  decide

theorem rc_digit : ∀ v : Fin 16, rc (BitVec.ofNat 4 v.val) = BitVec.ofNat 4 (digit 0x18CEF7B5AD639421 (48 + v.val)) := by
  decide

theorem sbox_hex (n k : Nat) :
    sbox (BitVec.ofNat 4 (digit n k)) = BitVec.ofNat 4 (digit 0xC56B90AD3EF84712 (48 + digit n k)) :=
  sbox_digit ⟨digit n k, digit_lt n k⟩

theorem invPerm_val : ∀ j : Fin 64, (invPerm j).val = 8 * (j.val % 8) + (j.val / 8 + j.val % 8) % 8 := by decide

theorem mixed_hex (n j : Nat) (h : j < 64) :
    (mixColumns (permuteNibbles (subNibbles (hexState n))))[j] = BitVec.ofNat 4 (mixedDigit n j) := by
  have b : ∀ k, below (permuteNibbles (subNibbles (hexState n))) ⟨j, h⟩ k =
      BitVec.ofNat 4 (digit 0xC56B90AD3EF84712 (48 + digit n (8 * (j % 8) + (j / 8 + j % 8 + k) % 8))) := by
    intro k
    have g := permuteNibbles_get (subNibbles (hexState n)) ⟨8 * ((j / 8 + k) % 8) + j % 8, by omega⟩
    simp only [below]
    rw [g]
    simp only [invPerm_val, subNibbles_get, hexState_get, sbox_hex]
    rw [show (8 * ((j / 8 + k) % 8) + j % 8) % 8 = j % 8 by omega,
      show ((8 * ((j / 8 + k) % 8) + j % 8) / 8 + j % 8) % 8 = (j / 8 + j % 8 + k) % 8 by omega]
  have g := mixColumns_get (permuteNibbles (subNibbles (hexState n))) ⟨j, h⟩
  rw [b, b, b, b] at g
  rw [g]
  apply BitVec.eq_of_toNat_eq
  simp only [BitVec.toNat_add, BitVec.toNat_ofNat, mixedDigit, Nat.add_zero]
  generalize digit _ (48 + _) = a, digit _ (48 + _) = b, digit _ (48 + _) = c, digit _ (48 + _) = d
  omega

theorem hexRound_digit (r n j : Nat) (h : j < 64) : digit (hexRound r n) j =
    if j = 63 then (mixedDigit n 63 + digit 0x18CEF7B5AD639421 (48 + r)) % 16 else mixedDigit n j := by
  have hm : ∀ k, mixedDigit n k < 16 := fun k => Nat.mod_lt _ (by decide)
  split
  · subst_vars; simp [digit, hexRound]
  · have e : 63 - j = (63 - 1 - j) + 1 := by omega
    rw [digit, hexRound, e, Nat.pow_succ', ← Nat.div_div_eq_div_mul]
    have := digits_digit (mixedDigit n) hm 63 j (by omega)
    rw [show ∀ a b : Nat, (16 * a + b % 16) / 16 = a by intros; omega]
    exact this

/-- A round may be taken on the hex digits. -/
theorem oneRound_hex (r n : Nat) (h : r < 16) : oneRound (BitVec.ofNat 4 r) (hexState n) = hexState (hexRound r n) := by
  apply Vector.ext
  intro j hj
  rw [oneRound, addConstant_get, mixed_hex n j hj, hexState_get, hexRound_digit r n j hj]
  by_cases e : 63 = j
  · subst e
    have := rc_digit ⟨r, h⟩
    simp only at this
    rw [if_pos rfl, if_pos rfl, this]
    apply BitVec.eq_of_toNat_eq
    simp
  · rw [if_neg e, if_neg (Ne.symm e)]

/-- The first `r` rounds may be taken on the hex digits. -/
theorem permutationN_hex (r n : Nat) (h : r ≤ 16) : permutationN r (hexState n) = hexState (hexRounds r n) := by
  induction r with
  | zero => rfl
  | succ r ih => rw [permutationN_succ, ih (by omega), oneRound_hex r _ (by omega), hexRounds]

theorem permutation_eq (S : NibState) : permutation S = permutationN 16 S := by
  simp [permutation, Config.rounds, List.range_succ, permutationN]

/-- The Permutation may be taken on the hex digits. -/
theorem permutation_hex (n : Nat) : permutation (hexState n) = hexState (hexRounds 16 n) := by
  rw [permutation_eq, permutationN_hex 16 n (by decide)]

end Sys2Proof.Machine
end

