-- ==== Sys2Proof/Laws/PerInstr.lean ====
section
/-! SUPPORT. For every instruction: if it has a command word, that word is one of the five commands exactly when the
instruction is not ILLEGAL (R63). -/

namespace Sys2Proof

/-- The row is ILLEGAL. -/
def Instr.isIllegal : Instr → Bool
  | .illegal _ => true
  | .start | .absorb _ | .final | .squeeze _ | .status | .subNibbles | .permuteNibbles | .mixColumns | .addConstant
  | .add16 _ _ | .round _ | .permutation | .encodeByte _ | .encodeMessage _ | .pad _ | .padInPlace _ | .decodeByte _
  | .absorbBlock _ | .hash _ | .hashScript _ | .digest | .reset => false

/-- The word of a well-formed instruction is legal exactly when the instruction is not ILLEGAL. -/
def Laws.WordLegality.Statement (i : Instr) : Prop :=
  i.wf = true → ∀ w, encode i = some (.command w) → legalWord w = !i.isIllegal

theorem Laws.WordLegality.noWord {i : Instr} (h : ∀ w, encode i ≠ some (.command w)) : Laws.WordLegality.Statement i :=
  fun _ w hw => absurd hw (h w)

theorem absorbWord_legal : ∀ d : Byte, legalWord (0x200#12 + d.setWidth 12) = true := by decide

theorem squeezeWord_legal : ∀ i : BitVec 5, legalWord (0x400#12 + i.setWidth 12) = true := by decide

theorem Laws.WordLegality.start : Statement .start := by
  intro _ w h; cases h; decide

theorem Laws.WordLegality.absorb (d : Byte) : Statement (.absorb d) := by
  intro _ w h; cases h; exact absorbWord_legal d

theorem Laws.WordLegality.final : Statement .final := by
  intro _ w h; cases h; decide

theorem Laws.WordLegality.squeeze (i : BitVec 5) : Statement (.squeeze i) := by
  intro _ w h; cases h; exact squeezeWord_legal i

theorem Laws.WordLegality.status : Statement .status := by
  intro _ w h; cases h; decide

theorem Laws.WordLegality.illegal (w : Command) : Statement (.illegal w) := by
  intro hw v h; cases h; simpa [Instr.wf, Instr.isIllegal] using hw

theorem Laws.WordLegality.subNibbles : Statement .subNibbles := noWord (by simp [encode])

theorem Laws.WordLegality.permuteNibbles : Statement .permuteNibbles := noWord (by simp [encode])

theorem Laws.WordLegality.mixColumns : Statement .mixColumns := noWord (by simp [encode])

theorem Laws.WordLegality.addConstant : Statement .addConstant := noWord (by simp [encode])

theorem Laws.WordLegality.add16 (a b : Nib) : Statement (.add16 a b) := noWord (by simp [encode])

theorem Laws.WordLegality.round (r : BitVec 4) : Statement (.round r) := noWord (by simp [encode])

theorem Laws.WordLegality.permutation : Statement .permutation := noWord (by simp [encode])

theorem Laws.WordLegality.encodeByte (b : Byte) : Statement (.encodeByte b) := noWord (by simp [encode])

theorem Laws.WordLegality.encodeMessage (m : List Byte) : Statement (.encodeMessage m) := noWord (by simp [encode])

theorem Laws.WordLegality.pad (m : List Byte) : Statement (.pad m) := noWord (by simp [encode])

theorem Laws.WordLegality.padInPlace (pos : BitVec 5) : Statement (.padInPlace pos) := noWord (by simp [encode])

theorem Laws.WordLegality.decodeByte (i : BitVec 5) : Statement (.decodeByte i) := noWord (by simp [encode])

theorem Laws.WordLegality.absorbBlock (p : Block) : Statement (.absorbBlock p) := noWord (by simp [encode])

theorem Laws.WordLegality.hash (m : List Byte) : Statement (.hash m) := noWord (by simp [encode])

theorem Laws.WordLegality.hashScript (m : List Byte) : Statement (.hashScript m) := noWord (by simp [encode])

theorem Laws.WordLegality.digest : Statement .digest := noWord (by simp [encode])

theorem Laws.WordLegality.reset : Statement .reset := noWord (by simp [encode])

end Sys2Proof
end

