-- ==== Sys2Proof/Laws/Sponge.lean ====
section
/-! SUPPORT. The open block of a message: the state after the bytes taken so far (the proof sketch of R156), as blocks of the
encoded message, which `blockAt` reads with zeros past its end. -/

namespace Sys2Proof.Machine

theorem encodeMessage_append (m n : List Byte) : encodeMessage (m ++ n) = encodeMessage m ++ encodeMessage n := by
  induction m with
  | nil => rfl
  | cons b m ih => simp [ih]

theorem encodeMessage_length (m : List Byte) : (encodeMessage m).length = 2 * m.length := by
  induction m with
  | nil => rfl
  | cons b m ih => simp [ih]; omega

theorem blockAt_get (q : List Nib) (k i : Nat) (h : i < 32) : (blockAt q k)[i] = q.getD (32 * k + i) 0#4 := by
  simp [blockAt]

/-- A block depends on its 32 nibbles of the stream only. -/
theorem blockAt_congr (q q' : List Nib) (k : Nat) (h : ∀ j, 32 * k ≤ j → j < 32 * k + 32 → q.getD j 0#4 = q'.getD j 0#4) :
    blockAt q k = blockAt q' k := by
  apply Vector.ext
  intro i hi
  rw [blockAt_get _ _ _ hi, blockAt_get _ _ _ hi]
  exact h _ (by omega) (by omega)

/-- The first blocks of a stream depend on its first nibbles only. -/
theorem absorbBlocks_congr (q q' : List Nib) (b : Nat) (h : ∀ j, j < 32 * b → q.getD j 0#4 = q'.getD j 0#4) :
    absorbBlocks q b = absorbBlocks q' b := by
  induction b with
  | zero => simp
  | succ b ih =>
    have h₁ := ih fun j hj => h j (by omega)
    have h₂ := blockAt_congr q q' b fun j _ hj => h j (by omega)
    rw [absorbBlocks_succ, absorbBlocks_succ, h₁, h₂]

/-- The state after the bytes `m` of a session: the full blocks absorbed and permuted, the rest added in (R156). -/
def openState (m : List Byte) : NibState :=
  absorbBlock (absorbBlocks (encodeMessage m) (m.length / 16)) (blockAt (encodeMessage m) (m.length / 16))

theorem getD_append_low (q r : List Nib) (j : Nat) (h : j < q.length) : (q ++ r).getD j 0#4 = q.getD j 0#4 := by
  simp [List.getD_eq_getElem?_getD, List.getElem?_append, h]

theorem getD_append_high (q r : List Nib) (j : Nat) : (q ++ r).getD (q.length + j) 0#4 = r.getD j 0#4 := by
  simp [List.getD_eq_getElem?_getD, List.getElem?_append]

theorem getD_past (q : List Nib) (j : Nat) (h : q.length ≤ j) : q.getD j 0#4 = 0#4 := by
  simp [List.getD_eq_getElem?_getD, List.getElem?_eq_none h]

theorem absorbBlock_zeros (S : NibState) (p : Block) (h : ∀ i (hi : i < 32), p[i] = 0#4) : absorbBlock S p = S := by
  apply Vector.ext
  intro i hi
  rw [absorbBlock_get]
  split
  · simp [h i]
  · rfl

@[simp] theorem openState_nil : openState [] = zeroState := by
  unfold openState
  exact absorbBlock_zeros _ _ fun i hi => by rw [blockAt_get _ _ _ hi]; rfl

/-- What ABSORB's two additions make of the open block: the same block with one byte more. -/
theorem openState_add (m : List Byte) (d : Byte) (i j : Fin 64) (hi : i.val = 2 * m.length % 32) (hj : j.val = i.val + 1) :
    addAt (addAt (openState m) i (hiNibble d)) j (loNibble d) =
      absorbBlock (absorbBlocks (encodeMessage (m ++ [d])) (m.length / 16)) (blockAt (encodeMessage (m ++ [d])) (m.length / 16)) := by
  have hl := encodeMessage_length m
  have e : encodeMessage (m ++ [d]) = encodeMessage m ++ [hiNibble d, loNibble d] := by
    rw [encodeMessage_append]; rfl
  have hb : absorbBlocks (encodeMessage (m ++ [d])) (m.length / 16) = absorbBlocks (encodeMessage m) (m.length / 16) :=
    absorbBlocks_congr _ _ _ fun k hk => by rw [e, getD_append_low _ _ _ (by omega)]
  rw [hb, e]
  apply Vector.ext
  intro k hk
  rw [addAt_get _ _ _ _ hk, addAt_get _ _ _ _ hk, openState, absorbBlock_get, absorbBlock_get]
  by_cases h32 : k < 32
  · simp only [h32, dif_pos, blockAt_get _ _ _ h32]
    by_cases h1 : i.val = k
    · have hk2 : ¬ j.val = k := by omega
      have p : 32 * (m.length / 16) + k = (encodeMessage m).length + 0 := by omega
      rw [if_neg hk2, if_pos h1, p, getD_append_high, Nat.add_zero, getD_past _ _ (Nat.le_refl _)]
      simp
    · by_cases h2 : j.val = k
      · have p : 32 * (m.length / 16) + k = (encodeMessage m).length + 1 := by omega
        rw [if_pos h2, if_neg h1, p, getD_append_high, getD_past _ _ (by omega)]
        simp
      · rw [if_neg h2, if_neg h1]
        congr 1
        by_cases hlt : 32 * (m.length / 16) + k < (encodeMessage m).length
        · rw [getD_append_low _ _ _ hlt]
        · rw [getD_past _ _ (by omega), getD_past _ _ (by simp; omega)]
  · have h1 : ¬ i.val = k := by omega
    have h2 : ¬ j.val = k := by omega
    simp [h32, h1, h2]

/-- ABSORB of a byte that does not fill the block. -/
theorem openState_snoc_open (m : List Byte) (d : Byte) (h : m.length % 16 ≠ 15) :
    openState (m ++ [d]) =
      absorbBlock (absorbBlocks (encodeMessage (m ++ [d])) (m.length / 16)) (blockAt (encodeMessage (m ++ [d])) (m.length / 16)) := by
  have e : (m ++ [d]).length / 16 = m.length / 16 := by simp; omega
  rw [openState, e]

/-- ABSORB of the byte that fills the block: the Permutation, and an empty block. -/
theorem openState_snoc_close (m : List Byte) (d : Byte) (h : m.length % 16 = 15) :
    openState (m ++ [d]) = permutation
      (absorbBlock (absorbBlocks (encodeMessage (m ++ [d])) (m.length / 16))
        (blockAt (encodeMessage (m ++ [d])) (m.length / 16))) := by
  have e : (m ++ [d]).length / 16 = m.length / 16 + 1 := by simp; omega
  have hl := encodeMessage_length (m ++ [d])
  rw [openState, e, absorbBlocks_succ]
  apply absorbBlock_zeros
  intro i hi
  rw [blockAt_get _ _ _ hi, getD_past _ _ (by simp at hl; omega)]

/-- FINAL's padding makes the open block the last block of `Pad(M)` (R127), and the Permutation then gives the hash. -/
theorem openState_final (m : List Byte) (pos : BitVec 5) (h : pos.toNat = 2 * m.length % 32) :
    permutation (padInPlace (openState m) pos) = hashState m := by
  have hl := encodeMessage_length m
  have hz : padZeros m.length = 30 - 2 * m.length % 32 := by unfold padZeros; omega
  have hp : (pad m).length / 32 = m.length / 16 + 1 := by simp [pad, hl, hz]; omega
  have e : pad m = encodeMessage m ++ ([0x8#4] ++ (List.replicate (padZeros m.length) 0x0#4 ++ [0x1#4])) := by
    simp [pad, List.append_assoc]
  have hs : hashState m = absorbBlocks (pad m) (m.length / 16 + 1) := by
    rw [hashState, Config.rate, hp]
  have hb : absorbBlocks (pad m) (m.length / 16) = absorbBlocks (encodeMessage m) (m.length / 16) :=
    absorbBlocks_congr _ _ _ fun k hk => by rw [e, getD_append_low _ _ _ (by omega)]
  rw [hs, absorbBlocks_succ, hb]
  refine congrArg permutation ?_
  apply Vector.ext
  intro k hk
  rw [padInPlace_get _ _ _ hk, openState, absorbBlock_get, absorbBlock_get]
  by_cases h32 : k < 32
  · simp only [h32, dif_pos, blockAt_get _ _ _ h32]
    rw [BitVec.add_assoc, BitVec.add_assoc]
    congr 1
    by_cases hlt : 32 * (m.length / 16) + k < (encodeMessage m).length
    · have h1 : ¬ pos.toNat = k := by omega
      have h2 : ¬ 31 = k := by omega
      rw [e, getD_append_low _ _ _ hlt, if_neg h1, if_neg h2]
      simp
    · have p : 32 * (m.length / 16) + k = (encodeMessage m).length + (k - pos.toNat) := by omega
      rw [getD_past _ _ (by omega), p, e, getD_append_high]
      by_cases h1 : pos.toNat = k
      · have h2 : ¬ 31 = k := by omega
        rw [if_pos h1, if_neg h2, show k - pos.toNat = 0 by omega]
        rfl
      · by_cases h2 : 31 = k
        · rw [if_neg h1, if_pos h2, show k - pos.toNat = 1 + padZeros m.length by omega]
          simp [List.getD_eq_getElem?_getD, Nat.add_comm 1]
        · rw [if_neg h1, if_neg h2, show k - pos.toNat = (k - pos.toNat - 1) + 1 by omega]
          have hq : k - pos.toNat - 1 < padZeros m.length := by omega
          simp [List.getD_eq_getElem?_getD, List.getElem?_append, hq]
  · have h1 : ¬ pos.toNat = k := by omega
    have h2 : ¬ 31 = k := by omega
    simp [h32, h1, h2]

end Sys2Proof.Machine
end

