-- ==== Sys2Proof/Laws/Step.lean ====
section
/-! SUPPORT. Steps with the host's act known, and runs as steps in a row. -/

namespace Sys2Proof.Machine

theorem step_word (s : State) (w : Command) (l : List HostEvent) (hb : s.busy = false) (hh : s.host = .word w :: l) :
    step s = exec (decodeCommand w) { s with host := l } := by
  simp [step, State.fetch, hh, hb]

theorem step_busy (s : State) (hb : s.busy = true) (hw : ∀ e ∈ s.host, e.waits = true) :
    step s = exec (decodeStage s.stage) s := by
  rcases hh : s.host with _ | ⟨e, l⟩
  · simp [step, State.fetch, State.ownStep, hh, hb]
  · have he := hw e (by simp [hh])
    cases e <;> simp_all [step, State.fetch, State.ownStep, HostEvent.waits]

theorem step_idle (s : State) (hb : s.busy = false) (hh : s.host = []) : step s = .next s := by
  simp [step, State.fetch, State.ownStep, hh, hb]

theorem run_zero (s : State) : Sys2Proof.core.run 0 s = .next s := rfl

theorem run_succ {s t : State} (n : Nat) (h : step s = .next t) :
    Sys2Proof.core.run (n + 1) s = Sys2Proof.core.run n t := by
  have h' : Sys2Proof.core.step s = .next t := h
  simp [Host.Core.run, h']

theorem run_add {s t : State} (m n : Nat) (h : Sys2Proof.core.run m s = .next t) :
    Sys2Proof.core.run (m + n) s = Sys2Proof.core.run n t := by
  induction m generalizing s with
  | zero =>
    cases h
    simp
  | succ m ih =>
    rw [Nat.add_right_comm]
    cases hs : Sys2Proof.core.step s with
    | next u =>
      have h' : Sys2Proof.core.run m u = .next t := by simpa [Host.Core.run, hs] using h
      simpa [Host.Core.run, hs] using ih h'
    | fault r => simp [Host.Core.run, hs] at h
    | refused r => simp [Host.Core.run, hs] at h

end Sys2Proof.Machine
end

