-- ==== Sys2Proof/Tests/Slice0.lean ====
section
/-! SUPPORT. The package's own tests. Expected results come from spec/95_test_vectors.md (its section stands at each test) or
are worked by hand from the rule named; then the witnesses: for each statement with hypotheses a state and operands that meet
them, at the boundary values of its clauses. -/

namespace Sys2Proof.Tests

open Sys2Proof.Machine

/-- The state a meaning answers. -/
def after : Result → Option State
  | .next t => some t
  | .fault _ => none
  | .refused _ => none

/-- A core at rest in a phase, `fcode` as that phase has it. -/
def inPhase (p : Phase) : State := { State.reset with phase := p, fcode := if p = .fault then .seqSqueeze else .none }

/-- A core in ABSORB with `pos` and a state in hex. -/
def absorbing (pos : BitVec 5) (n : Nat) : State := { State.reset with phase := .absorb, pos := pos, S := hexState n }

/-- A busy refined core, at a round and a stage. -/
def running (rnd : BitVec 4) (stage : BitVec 2) (fin : Bool) : State :=
  { State.reset with phase := .absorb, level := .micro, busy := true, rnd := rnd, stage := stage, fin := fin }

/-- A state with what the host does next. -/
def giving (s : State) (es : List HostEvent) : State := { s with host := es }

/-- `0123456789ABCDEF` four times: the input `A` of section 2.7. -/
def inputA : Nat := 0x0123456789ABCDEF0123456789ABCDEF0123456789ABCDEF0123456789ABCDEF

/-! ## WellFormed: an ill-formed term for each check -/

/-- R63: START's word is no ILLEGAL word. -/
theorem test_wf_illegalHoldsNoCommand : (Instr.illegal 0x100#12).wf = false := by decide

/-- R63: nor is ABSORB's or SQUEEZE's last word; the word after SQUEEZE's last is ILLEGAL. -/
theorem test_wf_illegalAtTheEdges :
    (Instr.illegal 0x2FF#12).wf = false ∧ (Instr.illegal 0x41F#12).wf = false ∧ (Instr.illegal 0x420#12).wf = true := by decide

/-- R127: the padding engine's position is even. -/
theorem test_wf_padInPlaceIsEven : (Instr.padInPlace 7#5).wf = false ∧ (Instr.padInPlace 6#5).wf = true := by decide

/-! ## Decoding: words written out bit by bit from R60, R61 and R66 -/

theorem test_decode_start : decode (.command 0b0001_00000000#12) = .start := by decide
theorem test_decode_absorb : decode (.command 0b0010_01100001#12) = .absorb 0x61#8 := by decide
theorem test_decode_absorbLast : decode (.command 0b0010_11111111#12) = .absorb 0xFF#8 := by decide
theorem test_decode_final : decode (.command 0b0011_00000000#12) = .final := by decide
theorem test_decode_squeeze : decode (.command 0b0100_000_00001#12) = .squeeze 1#5 := by decide
theorem test_decode_squeezeLast : decode (.command 0b0100_000_11111#12) = .squeeze 31#5 := by decide
theorem test_decode_status : decode (.command 0b0101_00000000#12) = .status := by decide
theorem test_decode_opcodeZero : decode (.command 0b0000_00000000#12) = .illegal 0x000#12 := by decide
theorem test_decode_startWithArg : decode (.command 0b0001_00000001#12) = .illegal 0x101#12 := by decide
theorem test_decode_finalWithArg : decode (.command 0b0011_00000001#12) = .illegal 0x301#12 := by decide
theorem test_decode_squeezeOfIndex32 : decode (.command 0b0100_001_00000#12) = .illegal 0x420#12 := by decide
theorem test_decode_squeezeHighArg : decode (.command 0b0100_111_11111#12) = .illegal 0x4FF#12 := by decide
theorem test_decode_statusWithArg : decode (.command 0b0101_00000001#12) = .illegal 0x501#12 := by decide
theorem test_decode_opcodeSix : decode (.command 0b0110_00000000#12) = .illegal 0x600#12 := by decide
theorem test_decode_opcodeFifteen : decode (.command 0b1111_11111111#12) = .illegal 0xFFF#12 := by decide
theorem test_decode_subNibbles : decode (.stage 0b00#2) = .subNibbles := by decide
theorem test_decode_permuteNibbles : decode (.stage 0b01#2) = .permuteNibbles := by decide
theorem test_decode_mixColumns : decode (.stage 0b10#2) = .mixColumns := by decide
theorem test_decode_addConstant : decode (.stage 0b11#2) = .addConstant := by decide

/-- Bits of no code are no instruction: a 12-bit word in one byte, a word past 12 bits, a row of no bits. -/
theorem test_decodeTableWord_none :
    decodeTableWord 8 4 = none ∧ decodeTableWord 16 0x1000 = none ∧ decodeTableWord 0 0 = none := by decide

/-- R63: 291 words are legal. -/
theorem test_legalWord_count : ((List.range 4096).countP fun n => legalWord (BitVec.ofNat 12 n)) = 291 := by decide +kernel

/-! ## The first step after reset -/

/-- Section 4, P1: `100 -> 000`, ABSORB, `pos = 0`. -/
theorem test_start_fromReset :
    (after (step (State.reset.withFetchWord 16 0x100))).map (fun t => (t.phase, t.pos, t.rsps)) =
      some (.absorb, 0#5, [0x000#12]) := by decide

/-- START in the middle of a message forgets it (section 4, P7). -/
theorem test_start_forgets : (after (execStart (absorbing 2#5 (0xFF <<< 248)))).map (fun t => (t.S, t.pos)) =
    some (hexState 0, 0#5) := by decide +kernel

/-- Section 4, P6: ABSORB in IDLE, `2AB -> 200`, `fcode = 2`. -/
theorem test_absorb_fromReset :
    (after (step (State.reset.withFetchWord 16 0x2AB))).map (fun t => (t.phase, t.fcode, t.pos, t.rsps)) =
      some (.fault, .seqAbsorb, 0#5, [0x200#12]) := by decide

/-- Section 4, P2: the third byte of "abc" at `pos = 4`. -/
theorem test_absorb_thirdByte :
    (after (execAbsorb 0x63#8 (absorbing 4#5 (0x6162 <<< 240)))).map (fun t => (t.S, t.pos, t.rsps)) =
      some (hexState (0x616263 <<< 232), 6#5, [0x000#12]) := by decide +kernel

/-- Section 4, P6: FINAL in IDLE, `300 -> 300`, `fcode = 3`. -/
theorem test_final_fromReset :
    (after (step (State.reset.withFetchWord 16 0x300))).map (fun t => (t.phase, t.fcode, t.rsps)) =
      some (.fault, .seqFinal, [0x300#12]) := by decide

/-- Section 3.2: the padding of "abc" inside FINAL, on the refined machine, which then runs the Permutation. -/
theorem test_final_pads :
    (after (execFinal { absorbing 6#5 (0x616263 <<< 232) with level := .micro })).map (fun t => (t.S, t.busy, t.fin)) =
      some (hexState 0x6162638000000000000000000000000100000000000000000000000000000000, true, true) := by decide +kernel

/-- Section 4, P6: SQUEEZE 0 in IDLE, `400 -> 400`, `fcode = 4`. -/
theorem test_squeeze_fromReset :
    (after (step (State.reset.withFetchWord 16 0x400))).map (fun t => (t.phase, t.fcode, t.rsps)) =
      some (.fault, .seqSqueeze, [0x400#12]) := by decide

/-- Section 2.9: byte 31 of the digest of the empty message is 0x4E. -/
theorem test_squeeze_lastByte :
    (after (execSqueeze 31#5 { inPhase .done with
      S := hexState 0xBB04E59E240854EE421CDABF5CDD0416BEAAAAC545A63B752792B5A41DD18B4E })).map (fun t => (t.phase, t.rsps)) =
      some (.done, [0x04E#12]) := by decide +kernel

/-- Section 4, P4: STATUS after a reset, `500 -> 000`. -/
theorem test_status_fromReset :
    (after (step (State.reset.withFetchWord 16 0x500))).map (fun t => (t.phase, t.rsps)) = some (.idle, [0x000#12]) := by decide

/-- Section 4, P4: STATUS in FAULT, `500 -> 043`. -/
theorem test_status_inFault : (after (execStatus (inPhase .fault))).map (fun t => (t.phase, t.rsps)) =
    some (.fault, [0x043#12]) := by decide

/-- Section 4, P6: `FFF -> 100`, `fcode = 1`. -/
theorem test_illegal_fromReset :
    (after (step (State.reset.withFetchWord 16 0xFFF))).map (fun t => (t.phase, t.fcode, t.rsps)) =
      some (.fault, .illegalCmd, [0x100#12]) := by decide

/-- Section 4, P6: index 32 is not a SQUEEZE, `420 -> 100`. -/
theorem test_illegal_squeeze32 :
    (after (step ((inPhase .done).withFetchWord 16 0x420))).map (fun t => (t.phase, t.fcode, t.rsps)) =
      some (.fault, .illegalCmd, [0x100#12]) := by decide

/-! ## The layers, through the sequencer -/

/-- Section 2.3: `0` x64 to `C` x64. -/
theorem test_subNibbles_fromReset :
    (after (step (State.reset.withFetchWord 8 0))).map (fun t => (t.stage, t.S.toList.all (· == 0xC#4))) =
      some (1#2, true) := by decide +kernel

/-- Section 3.1, round 0. -/
theorem test_subNibbles_round0 :
    subNibbles (hexState 0x8000000000000000000000000000000100000000000000000000000000000000) =
      hexState 0x3CCCCCCCCCCCCCCCCCCCCCCCCCCCCCC5CCCCCCCCCCCCCCCCCCCCCCCCCCCCCCCC := by decide +kernel

/-- Section 2.4: the nibble at 31 moves to 35. -/
theorem test_permuteNibbles_lone : permuteNibbles (hexState (0x5 <<< 128)) = hexState (0x5 <<< 112) := by decide +kernel

/-- Section 2.7: PERMUTENIBBLES of round 0 on `A`, from the sequencer's stage 1. -/
theorem test_permuteNibbles_stage1 :
    (after (step ({ running 0#4 1#2 false with
      S := hexState 0xC56B90AD3EF84712C56B90AD3EF84712C56B90AD3EF84712C56B90AD3EF84712 }))).map (fun t => (t.stage, t.S)) =
      some (2#2, hexState 0xCE6897A25FB401D36897A2CEB401D35F97A2CE6801D35FB4A2CE6897D35FB401) := by decide +kernel

/-- Section 2.5: a lone `1` at index 3 gives `1` at 3, 43, 51 and 59. -/
theorem test_mixColumns_lone :
    mixColumns (hexState (1 <<< 240)) = hexState (1 <<< 240 ||| 1 <<< 80 ||| 1 <<< 48 ||| 1 <<< 16) := by decide +kernel

/-- Section 2.5, the last row, from the sequencer's stage 2. -/
theorem test_mixColumns_stage2 :
    (after (step ({ running 0#4 2#2 false with
      S := hexState 0x3CCCCCCCCCCCCCCCCCCCCCCCCCCCCCCCCCC5CCCCCCCCCCCCCCCCCCCCCCCCCCCC }))).map (fun t => (t.stage, t.S)) =
      some (3#2, hexState 0x7000000000090000000900000009000000090000700000007000000070000000) := by decide +kernel

/-- Section 2.6: `4` with round 2 gives `0`; nibble 62 is left; R161: the next round begins. -/
theorem test_addConstant_round2 :
    (after (step ({ running 2#4 3#2 false with S := hexState 0x34 }))).map
      (fun t => (t.S[62], t.S[63], t.rnd, t.stage, t.busy)) = some (3#4, 0#4, 3#4, 0#2, true) := by decide +kernel

/-- Section 2.6: `0` with round 15 gives `1`; R161: FINAL's Permutation ends in DONE, and the response is given. -/
theorem test_addConstant_round15 :
    (after (step (running 15#4 3#2 true))).map
      (fun t => (t.S[63], t.stage, t.busy, t.phase, t.rsps)) = some (1#4, 0#2, false, .done, [0x000#12]) := by decide +kernel

/-! ## The function rows -/

/-- Section 2.1: `C + 9`. -/
theorem test_add16_wraps : (after (execAdd16 0xC#4 9#4 State.reset)).map (·.value) = some (.nibble 5#4) := by decide

/-- Section 2.7: ROUND 0 on `A`. -/
theorem test_round_ofA :
    oneRound 0#4 (hexState inputA) = hexState 0x29A40D82F2EE3448A40D8229EE3448F20D8229A43448F2EE8229A40D48F2EE35 := by
  rw [show (0#4) = BitVec.ofNat 4 0 from rfl, oneRound_hex 0 _ (by decide)]
  exact congrArg hexState (by decide +kernel)

/-- Section 2.7: `Permutation(0^64)`. -/
theorem test_permutation_ofZero :
    permutation (hexState 0) = hexState 0xC5F691C6A65B0F446C17528B805359BCE646BF0905E1418B4F25FE442BE9F714 := by
  rw [permutation_hex]
  exact congrArg hexState (by decide +kernel)

/-- Section 2.7: `Permutation(A)`. -/
theorem test_permutation_ofA :
    permutation (hexState inputA) = hexState 0xDD8D1713D3E965DCBDB08F00BC9A78A3B38FBF42BD236189D35C4755D4725EB3 := by
  rw [permutation_hex]
  exact congrArg hexState (by decide +kernel)

/-- Section 2.8: `0xF0 -> F,0`. -/
theorem test_encodeByte_highFirst : (after (execEncodeByte 0xF0#8 State.reset)).map (·.value) =
    some (.nibbles [0xF#4, 0x0#4]) := by decide

/-- Section 2.8: "abc". -/
theorem test_encodeMessage_abc : (after (execEncodeMessage [0x61#8, 0x62#8, 0x63#8] State.reset)).map (·.value) =
    some (.nibbles [6#4, 1#4, 6#4, 2#4, 6#4, 3#4]) := by decide

/-- Section 2.8: the empty message is padded to `8`, thirty `0`, `1`. -/
theorem test_pad_empty : (after (execPad [] State.reset)).map (·.value) =
    some (.nibbles ([8#4] ++ List.replicate 30 0#4 ++ [1#4])) := by decide

/-- Section 2.8: 15 bytes leave room for `8` and `1` alone. -/
theorem test_pad_fifteen : pad (List.replicate 15 0#8) = List.replicate 30 0#4 ++ [8#4, 1#4] := by decide

/-- Section 3.3, block 1: `E + 8 = 6` and `7 + 1 = 8`. -/
theorem test_padInPlace_block1 :
    (after (execPadInPlace 0#5 { State.reset with
      S := hexState 0xE44EB77CF2B9B6A73089E060A6D4506791214C3D83B64D0245E61349DF9BA343 })).map (·.S) =
      some (hexState 0x644EB77CF2B9B6A73089E060A6D4506891214C3D83B64D0245E61349DF9BA343) := by decide +kernel

/-- Section 2.9: nibbles `0,F` decode to `0x0F`. -/
theorem test_decodeByte_highFirst :
    (after (execDecodeByte 31#5 { State.reset with S := hexState 0x0F })).map (·.value) = some (.byte 0x0F#8) := by decide +kernel

/-- Section 3.1: `S after AbsorbBlock` of the empty message. -/
theorem test_absorbBlock_empty :
    absorbBlock zeroState (blockAt (pad []) 0) =
      hexState 0x8000000000000000000000000000000100000000000000000000000000000000 := by decide +kernel

/-- R140: a block after another, on the hex digits: what one block more makes of a state. -/
theorem absorbBlocks_hex (q : List Nib) (b n x : Nat) (h : absorbBlocks q b = hexState n)
    (hx : absorbBlock (hexState n) (blockAt q b) = hexState x) : absorbBlocks q (b + 1) = hexState (hexRounds 16 x) := by
  rw [absorbBlocks_succ, h, hx, permutation_hex]

/-- The 43 bytes of the sentence of V3 (section 1.1), in ASCII. -/
def foxBytes : List Byte :=
  [0x54, 0x68, 0x65, 0x20, 0x71, 0x75, 0x69, 0x63, 0x6b, 0x20, 0x62, 0x72, 0x6f, 0x77, 0x6e, 0x20] ++
  [0x66, 0x6f, 0x78, 0x20, 0x6a, 0x75, 0x6d, 0x70, 0x73, 0x20, 0x6f, 0x76, 0x65, 0x72, 0x20, 0x74] ++
  [0x68, 0x65, 0x20, 0x6c, 0x61, 0x7a, 0x79, 0x20, 0x64, 0x6f, 0x67]

/-- Section 1.1, V1: the source's digest of the empty message. -/
theorem test_hash_V1 : (hashMessage []).map BitVec.toNat =
    [0xbb, 0x04, 0xe5, 0x9e, 0x24, 0x08, 0x54, 0xee, 0x42, 0x1c, 0xda, 0xbf, 0x5c, 0xdd, 0x04, 0x16,
     0xbe, 0xaa, 0xaa, 0xc5, 0x45, 0xa6, 0x3b, 0x75, 0x27, 0x92, 0xb5, 0xa4, 0x1d, 0xd1, 0x8b, 0x4e] := by
  have h : hexRounds 16 0x8000000000000000000000000000000100000000000000000000000000000000 =
      0xBB04E59E240854EE421CDABF5CDD0416BEAAAAC545A63B752792B5A41DD18B4E := by decide +kernel
  have e : hashState [] = absorbBlocks (pad []) 1 := congrArg (absorbBlocks (pad [])) (by decide)
  rw [hashMessage, e, absorbBlocks_succ, absorbBlocks_zero, test_absorbBlock_empty, permutation_hex, h]
  decide +kernel

/-- Section 1.1, V3: the source's digest of the sentence of 43 bytes, three blocks. -/
theorem test_hash_V3 : (hashMessage foxBytes).map BitVec.toNat =
    [0x85, 0xa9, 0x16, 0x26, 0x92, 0x50, 0xcc, 0x71, 0x7c, 0xd8, 0x7d, 0xd1, 0x61, 0x18, 0x42, 0xe9,
     0xd1, 0x73, 0xb0, 0x56, 0xc4, 0xcc, 0x0a, 0x0b, 0xea, 0x44, 0x59, 0xab, 0xf5, 0x04, 0x84, 0x94] := by
  have e : hashState foxBytes = absorbBlocks (pad foxBytes) 3 := congrArg (absorbBlocks (pad foxBytes)) (by decide +kernel)
  have z : absorbBlocks (pad foxBytes) 0 = hexState 0 := by rw [absorbBlocks_zero]; decide +kernel
  have h1 := absorbBlocks_hex (pad foxBytes) 0 0 0x54686520717569636b2062726f776e2000000000000000000000000000000000 z
    (by decide +kernel)
  have h2 := absorbBlocks_hex _ _ _ 0xc42f624b612683ee50278451f177e39bcfae3c5426bd00014067019491696359 h1
    (by decide +kernel)
  have h3 := absorbBlocks_hex _ _ _ 0xdce2818510038d61c38035d386a00344a8c309ab6db75683bd2f9c7196a06782 h2
    (by decide +kernel)
  have h : hexRounds 16 0xdce2818510038d61c38035d386a00344a8c309ab6db75683bd2f9c7196a06782 =
      0x85a916269250cc717cd87dd1611842e9d173b056c4cc0a0bea4459abf5048494 := by decide +kernel
  rw [hashMessage, e, h3, h]
  decide +kernel

/-! ## The pseudo-commands -/

/-- R69: `HASH 61` stands for START, ABSORB 0x61, FINAL, before what the host had left. -/
theorem test_hashScript_expands :
    (after (execHashScript [0x61#8] (giving State.reset [.digest]))).map (·.host) =
      some [.word 0x100#12, .word 0x261#12, .word 0x300#12, .digest] := by decide

/-- R69: DIGEST stands for 32 words, SQUEEZE 0 the first and SQUEEZE 31 the last. -/
theorem test_digest_expands :
    (after (execDigest State.reset)).map (fun t => (t.host.length, t.host.head?, t.host.getLast?)) =
      some (32, some (.word 0x400#12), some (.word 0x41F#12)) := by decide

/-- Section 4, P4: RESET out of FAULT. -/
theorem test_reset_leavesFault :
    (after (execReset (inPhase .fault))).map (fun t => (t.phase, t.fcode, t.pos, t.rsps)) = some (.idle, .none, 0#5, []) := by
  decide

/-- R211: a reset in the middle of a Permutation gives no response. -/
theorem test_reset_whileBusy :
    (after (step (giving (running 7#4 2#2 true) [.resetNow]))).map (fun t => (t.busy, t.rnd, t.stage, t.fin, t.rsps)) =
      some (false, 0#4, 0#2, false, []) := by decide

/-- Section 4, P1 in text: two lines of a script. -/
theorem test_script_assemble :
    assemble [['S', 'T', 'A', 'R', 'T', ' ', '-', '>', ' ', '0', '0', '0'], ['F', 'I', 'N', 'A', 'L']] =
      some [.word 0x100#12, .word 0x300#12] := by decide +kernel

/-- R68: an operand out of range, and a word that is no mnemonic, are errors of the script. -/
theorem test_script_errors :
    parseLine ['A', 'B', 'S', 'O', 'R', 'B', ' ', '2', '5', '6'] = none ∧ parseLine ['N', 'O', 'P'] = none := by
  decide +kernel

/-! ## Witnesses: the hypotheses of the statements can be met, at each clause and at its edges -/

/-- DecodeAndEncodeAreInverse: a word for each clause, the first and last of ABSORB and SQUEEZE among them. -/
theorem witness_decodeAndEncode :
    (0x100#12).toNat / 256 = 1 ∧ (0x100#12).toNat % 256 = 0 ∧ (0x200#12).toNat / 256 = 2 ∧ (0x2FF#12).toNat / 256 = 2 ∧
    (0x300#12).toNat / 256 = 3 ∧ (0x41F#12).toNat / 256 = 4 ∧ (0x41F#12).toNat % 256 < 32 ∧
    (0x500#12).toNat / 256 = 5 ∧ legalWord 0x420#12 = false ∧
    (Instr.squeeze 31#5).wf = true ∧ encode (.squeeze 31#5) = some (.command 0x41F#12) ∧
    (Instr.illegal 0x420#12).wf = true ∧ encode (.illegal 0x420#12) = some (.command 0x420#12) ∧
    Instr.addConstant.wf = true ∧ encode .addConstant = some (.stage 3#2) := by decide

/-- OpcodeMapSelectsTheCommands: a word in a row, and words of the lowest and the highest opcodes that are not assigned. -/
theorem witness_opcodeMap :
    (∃ r ∈ opcodeMap, r.has 0x4FF#12 = false ∧ r.has 0x41F#12 = true) ∧ (0x0FF#12).toNat / 256 = 0 ∧
    6 ≤ (0x600#12).toNat / 256 ∧ 6 ≤ (0xFFF#12).toNat / 256 := by decide

/-- IllegalWordsRaiseIllegalCmd and StartZeroesTheState: a ready core in each of the three phases. -/
theorem witness_ready : (inPhase .idle).ready ∧ (inPhase .absorb).ready ∧ (inPhase .done).ready := by decide

/-- StepRunsTheDecodedOperation: the host's acts at a core that is ready. -/
theorem witness_step_ready :
    (giving State.reset [.word 0x100#12]).busy = false ∧ (giving State.reset [.word 0x100#12]).host = [.word 0x100#12] ∧
    (giving State.reset [.hash []]).host = [.hash []] ∧ (giving State.reset [.digest]).host = [.digest] ∧
    (giving State.reset [.reset]).host = [.reset] ∧ (giving State.reset [.resetNow]).host = [.resetNow] ∧
    State.reset.host = [] ∧ (giving State.reset [.wait]).host = [.wait] := by decide

/-- StepRunsTheDecodedOperation: the host's acts at a core that is busy. -/
theorem witness_step_busy :
    (running 0#4 0#2 false).busy = true ∧ (running 0#4 0#2 false).host = [] ∧
    (giving (running 0#4 0#2 false) [.word 0x500#12]).host = [.word 0x500#12] ∧ (HostEvent.word 0x500#12).waits = true ∧
    HostEvent.reset.waits = true ∧ (giving (running 0#4 0#2 false) [.wait]).host = [.wait] := by decide

/-- PlacedBitsAreRunNext: bits of a command, of an illegal word and of a stage. -/
theorem witness_placed :
    decodeTableWord 16 0x41F = some (.squeeze 31#5) ∧ decodeTableWord 16 0xFFF = some (.illegal 0xFFF#12) ∧
    decodeTableWord 8 3 = some .addConstant ∧ tableCode 16 0x41F = some (.command 0x41F#12) ∧
    tableCode 8 0 = some (.stage 0#2) ∧ tableCode 8 3 = some (.stage 3#2) := by decide

/-- SboxIsTheTable: two arguments with one value are equal ones. -/
theorem witness_sbox : sbox 15#4 = sbox 15#4 := rfl

/-- SubNibblesSubstitutesEveryNibble, with its clause for the all-zero state. -/
theorem witness_subNibbles : (running 15#4 0#2 true).busy = true ∧ (running 15#4 0#2 true).stage = 0#2 ∧
    ∀ i : Fin 64, (running 15#4 0#2 true).S[i.val] = 0#4 := by decide +kernel

/-- PermuteNibblesMovesToPerm, with its clause for a state of equal nibbles. -/
theorem witness_permuteNibbles : (running 0#4 1#2 false).busy = true ∧ (running 0#4 1#2 false).stage = 1#2 ∧
    ∀ i : Fin 64, (running 0#4 1#2 false).S[i.val] = 0#4 := by decide +kernel

/-- MixColumnsSumsFourRowsOfTheSnapshot, with its clauses for a state of zeros and a state of 15s. -/
theorem witness_mixColumns : (running 0#4 2#2 false).busy = true ∧ (running 0#4 2#2 false).stage = 2#2 ∧
    (∀ i : Fin 64, (running 0#4 2#2 false).S[i.val] = 0#4) ∧
    ∀ i : Fin 64, ({ running 0#4 2#2 false with S := Vector.replicate 64 15#4 } : State).S[i.val] = 15#4 := by decide +kernel

/-- AddConstantTouchesOnlyNibble63: rounds 0 and 14, which are not the last, and round 15, which is. -/
theorem witness_addConstant : (running 0#4 3#2 false).busy = true ∧ (running 0#4 3#2 false).stage = 3#2 ∧
    (running 0#4 3#2 false).rnd ≠ 15#4 ∧ (running 14#4 3#2 false).rnd ≠ 15#4 ∧ (running 15#4 3#2 true).rnd = 15#4 := by decide

/-- RowsOutsideTheirTurn. -/
theorem witness_outsideTheirTurn : State.reset.busy = false ∧ (running 0#4 0#2 false).busy = true := ⟨rfl, rfl⟩

/-- RoundAppliesTheFourLayers: the all-zero state. -/
theorem witness_round : ∀ i : Fin 64, State.reset.S[i.val] = 0#4 := by decide +kernel

/-- SubstitutionAndPermutationInvert: the premises of the way back. -/
theorem witness_invert : ∀ i : Fin 64, zeroState[(invPerm i).val] = (permuteNibbles zeroState)[i.val] := by
  intro i
  rw [permuteNibbles_get, zeroState_get]

/-- OnlyMixColumnsLosesInformation: equal images. -/
theorem witness_injective : subNibbles zeroState = subNibbles zeroState ∧ permuteNibbles zeroState = permuteNibbles zeroState ∧
    addConstant 15#4 zeroState = addConstant 15#4 zeroState := ⟨rfl, rfl, rfl⟩

/-- EncoderGivesHighNibbleFirst and EncoderAndDecoderAreInverse. -/
theorem witness_encoder : [0x61#8][0]? = some 0x61#8 ∧
    encodeByte 0x4E#8 = [(hexState 0x4E)[2 * (31#5).toNat], (hexState 0x4E)[2 * (31#5).toNat + 1]] := by decide +kernel

/-- PadIsInjective: equal paddings, and messages of 0, 16 and 32 bytes. -/
theorem witness_pad : pad [0x61#8] = pad [0x61#8] ∧ ([] : List Byte).length % 16 = 0 ∧
    (List.replicate 16 0#8).length % 16 = 0 ∧ (List.replicate 32 0#8).length % 16 = 0 := by decide

/-- PadInPlaceAddsTheRestOfTheBlock: the first, a middle and the last position. -/
theorem witness_padInPlace : (0#5).toNat % 2 = 0 ∧ (16#5).toNat % 2 = 0 ∧ (30#5).toNat % 2 = 0 ∧
    ∃ j : Fin 64, j.val ≠ (30#5).toNat ∧ j.val ≠ 31 := by decide

/-- AbsorbBlockAddsIntoTheRate: the first capacity nibble, and a block nibble of zero. -/
theorem witness_absorbBlock : 32 ≤ (32 : Fin 64).val ∧ (Vector.replicate 32 0#4 : Block)[31] = 0#4 := by decide

/-- AbsorbAddsOneByte: a position before the last and the last one, on the command-level machine, and the two phases in which
it faults. -/
theorem witness_absorb :
    (absorbing 28#5 0).busy = false ∧ (absorbing 28#5 0).pos.toNat % 2 = 0 ∧ (absorbing 28#5 0).phase = .absorb ∧
    (absorbing 28#5 0).pos ≠ 30#5 ∧ (absorbing 30#5 0).pos.toNat % 2 = 0 ∧ (absorbing 30#5 0).pos = 30#5 ∧
    (absorbing 30#5 0).level = .command ∧ (inPhase .idle).phase = .idle ∧ (inPhase .done).phase = .done ∧
    (inPhase .idle).busy = false ∧ (inPhase .idle).pos.toNat % 2 = 0 := by decide

/-- FinalPadsPermutesAndEntersDone: the first and the last position, and the two phases in which it faults. -/
theorem witness_final :
    (absorbing 0#5 0).busy = false ∧ (absorbing 0#5 0).pos.toNat % 2 = 0 ∧ (absorbing 0#5 0).phase = .absorb ∧
    (absorbing 30#5 0).pos.toNat % 2 = 0 ∧ (absorbing 30#5 0).level = .command ∧
    (inPhase .idle).phase = .idle ∧ (inPhase .done).phase = .done := by decide

/-- SqueezeReadsADigestByte and StatusAnswersPhaseAndFault: each phase, `fcode` as R33 has it. -/
theorem witness_squeeze_status :
    (inPhase .done).busy = false ∧ (inPhase .done).phase = .done ∧ (inPhase .idle).phase = .idle ∧
    (inPhase .absorb).phase = .absorb ∧ ∀ p : Fin 4, let q := [Phase.idle, .absorb, .done, .fault].getD p.val .idle
      ((inPhase q).fcode = .none ↔ (inPhase q).phase ≠ .fault) := by decide +kernel

/-- PhaseTransitionsAreTheTable, FaultEntryWritesOnlyPhaseAndCode and EveryWordGetsOneResponse: the words of the table's rows,
and the phases of its columns. -/
theorem witness_phaseTable :
    (after (step (giving (inPhase .done) [.wait]))).map (·.phase) = some .done ∧ (inPhase .done).busy = false ∧
    (giving (inPhase .fault) [.word 0x500#12]).busy = false ∧ (giving (inPhase .fault) [.word 0x500#12]).level = .command ∧
    (giving (inPhase .fault) [.word 0x500#12]).host = [.word 0x500#12] ∧ (inPhase .done).phase ≠ .fault ∧
    decodeCommand 0x100#12 = .start ∧ decodeCommand 0x200#12 = .absorb 0x00#8 ∧ decodeCommand 0x300#12 = .final ∧
    decodeCommand 0x41F#12 = .squeeze 31#5 ∧ decodeCommand 0x500#12 = .status ∧
    decodeCommand 0x420#12 = .illegal 0x420#12 := by decide

/-- EveryWordGetsOneResponse, GoneWrongIsSeenAndNeverCleared: a step whose response has a nonzero status. -/
theorem witness_faultResponse :
    (after (step (giving (inPhase .idle) [.word 0x000#12]))).map (fun t => (t.rsps.map statusCode, t.phase)) =
      some ([1#4], .fault) := by decide

/-- DecodeCheckComesBeforeThePhaseCheck: each of its four clauses, the third with a legal word that faults. -/
theorem witness_decodeCheck :
    (inPhase .fault).phase = .fault ∧ (inPhase .absorb).phase = .absorb ∧ legalWord 0x420#12 = false ∧
    legalWord 0x41F#12 = true ∧
    (after (step (giving (inPhase .absorb) [.word 0x41F#12]))).map (·.fcode) = some .seqSqueeze := by decide

/-- FaultRefusesEveryWordButStatus: a fault, STATUS's word and the words beside it. -/
theorem witness_faultRefuses :
    (giving (inPhase .fault) [.word 0x501#12]).busy = false ∧ (giving (inPhase .fault) [.word 0x501#12]).phase = .fault ∧
    (0x4FF#12) ≠ (0x500#12) ∧ (0x501#12) ≠ (0x500#12) := by decide

/-- OnlyResetLeavesFault: a core in FAULT with every kind of act but reset before it. -/
theorem witness_onlyReset :
    let s := giving (inPhase .fault) [.word 0x100#12, .hash [], .digest, .wait]
    s.busy = false ∧ s.phase = .fault ∧ ∀ e ∈ s.host, e.isReset = false := by decide

/-- A core in ABSORB meets the invariants (GoneWrongIsSeenAndNeverCleared, InvariantIsKept). -/
theorem witness_inv_absorbing (n : Nat) : (absorbing 30#5 n).Inv :=
  ⟨by show (30#5).toNat % 2 = 0; decide, by show (30#5).toNat ≤ 30; decide, by simp [absorbing, State.reset], by simp [absorbing, State.reset],
    fun _ => ⟨rfl, rfl, rfl⟩, by simp [absorbing, State.reset], fun _ => rfl⟩

/-- So does a running refined core, and one in FAULT. -/
theorem witness_inv_running (r : BitVec 4) (v : BitVec 2) (f : Bool) : (running r v f).Inv ∧ (inPhase .fault).Inv :=
  ⟨⟨by show (0#5).toNat % 2 = 0; decide, by show (0#5).toNat ≤ 30; decide, fun _ => rfl, by simp [running, State.reset], by simp [running],
    fun _ => rfl, by simp [running]⟩,
   ⟨by show (0#5).toNat % 2 = 0; decide, by show (0#5).toNat ≤ 30; decide, fun _ => rfl, by simp [inPhase], fun _ => ⟨rfl, rfl, rfl⟩,
    by simp [inPhase, State.reset], fun _ => rfl⟩⟩

/-- ResetGivesEveryRegisterItsValue: a reset at once at a core that is busy. -/
theorem witness_resetNow : (giving (running 3#4 1#2 true) [.resetNow]).host = [.resetNow] := rfl

/-- ResetAbandonsARunningCommand: no micro-step taken, and all but the last one, of the last round. -/
theorem witness_abandon :
    let a := giving (running 0#4 0#2 true) [.resetNow]
    let b := giving (running 15#4 2#2 false) [.wait, .resetNow]
    (a.busy = true ∧ 0 + 4 * a.rnd.toNat + a.stage.toNat < 64 ∧ a.host = List.replicate 0 .wait ++ .resetNow :: []) ∧
    (b.busy = true ∧ 1 + 4 * b.rnd.toNat + b.stage.toNat < 64 ∧ b.host = List.replicate 1 .wait ++ .resetNow :: []) := by
  decide +kernel

/-- PosCountsTheOpenBlock: no byte, and one. -/
theorem witness_posCounts :
    State.reset.ready ∧ State.reset.level = .command ∧
    (giving State.reset [.word 0x100#12, .wait]).host =
      (.word 0x100#12 :: ([] : List Byte).map fun d => .word (0x200#12 + d.setWidth 12)) ++ [.wait] ∧
    (giving State.reset [.word 0x100#12, .word 0x261#12]).host =
      (.word 0x100#12 :: [0x61#8].map fun d => .word (0x200#12 + d.setWidth 12)) ++ [] := by decide +kernel

/-- SessionComputesTheHash: a session of one byte with a STATUS in every gap, from DONE. -/
theorem witness_session :
    let ws := [0x100#12, 0x500#12, 0x261#12, 0x500#12, 0x300#12, 0x500#12]
    let s := giving (inPhase .done) (ws.map .word ++ [.digest])
    s.ready ∧ s.level = .command ∧ ws.head? = some 0x100#12 ∧
    ws.filter (fun w => w != 0x500#12) =
      [0x100#12] ++ [0x61#8].map (fun d => 0x200#12 + d.setWidth 12) ++ [0x300#12] ∧
    s.host = ws.map .word ++ [.digest] := by decide +kernel

/-- HashThenDigestIsTheOneShotHash: from ABSORB, with a message that a START must forget. -/
theorem witness_hashThenDigest :
    let s := giving (absorbing 4#5 0x61) [.hash [0xFF#8], .digest]
    s.ready ∧ s.level = .command ∧ s.host = .hash [0xFF#8] :: .digest :: [] := by decide

/-- A core in DONE meets the invariants, whatever its state array. -/
theorem witness_inv_done (n : Nat) (l : List HostEvent) : ({ inPhase .done with S := hexState n, host := l } : State).Inv :=
  ⟨by show (0#5).toNat % 2 = 0; decide, by show (0#5).toNat ≤ 30; decide, fun _ => rfl, by simp [inPhase, State.reset],
    fun _ => ⟨rfl, rfl, rfl⟩, by simp [inPhase, State.reset], fun _ => rfl⟩

/-- NothingSurvivesAStart: two cores in DONE with other digests. -/
theorem witness_nothingSurvives :
    let s₁ : State := { inPhase .done with S := hexState 1, host := [.word 0x100#12, .word 0x300#12] }
    let s₂ : State := { inPhase .done with S := hexState 2, host := [.word 0x100#12, .word 0x300#12] }
    s₁.Inv ∧ s₂.Inv ∧ s₁.ready ∧ s₂.ready ∧ s₁.level = s₂.level ∧
    s₁.host = .word 0x100#12 :: [0x300#12].map .word ∧ s₂.host = s₁.host :=
  ⟨witness_inv_done 1 _, witness_inv_done 2 _, by decide, by decide, rfl, rfl, rfl⟩

/-- NoIntermediateStateIsVisible: a step in ABSORB, and one in DONE that stays there. -/
theorem witness_notVisible :
    (inPhase .absorb).phase ≠ .done ∧
    ((after (step (giving (inPhase .absorb) [.word 0x500#12]))).map (·.rsps)) = some [0x001#12] ∧
    ((after (step (giving (inPhase .done) [.word 0x41F#12]))).map (·.phase)) = some .done := by decide

/-- DigestStaysReadable: both kinds of word. -/
theorem witness_digestStays :
    let s := giving (inPhase .done) ([0x500#12, 0x41F#12].map .word ++ [.reset])
    s.busy = false ∧ s.phase = .done ∧ decodeCommand 0x500#12 = .status ∧ decodeCommand 0x41F#12 = .squeeze 31#5 ∧
    s.host = [0x500#12, 0x41F#12].map .word ++ [.reset] := by decide +kernel

/-- StartingAPermutationMakesTheCoreBusy: a refined core at `pos = 30`, and one that is busy with a word at the port. -/
theorem witness_starting :
    let s : State := { absorbing 30#5 0 with level := .micro }
    let t := giving (running 0#4 0#2 false) [.word 0x500#12]
    s.busy = false ∧ s.phase = .absorb ∧ s.level = .micro ∧ s.pos = 30#5 ∧ t.busy = true ∧ t.host = .word 0x500#12 :: [] := by
  decide

/-- MicroStepAppliesOneLayer: a stage before the last, the last stage of a round before the last and of the last, with and
without `fin`. -/
theorem witness_microStep :
    (running 0#4 2#2 true).busy = true ∧ (∀ e ∈ (running 0#4 2#2 true).host, e.waits = true) ∧
    (∀ e ∈ (giving (running 0#4 2#2 true) [.word 0x500#12]).host, e.waits = true) ∧ (running 0#4 2#2 true).stage ≠ 3#2 ∧
    (running 14#4 3#2 true).stage = 3#2 ∧ (running 14#4 3#2 true).rnd ≠ 15#4 ∧ (running 15#4 3#2 true).rnd = 15#4 ∧
    (running 15#4 3#2 true).fin = true ∧ (running 15#4 3#2 false).fin = false := by decide

/-- SixtyFourMicroStepsAreThePermutation: a Permutation just begun, with a word waiting. -/
theorem witness_sixtyFour :
    let s := giving (running 0#4 0#2 true) [.word 0x400#12]
    s.busy = true ∧ s.rnd = 0#4 ∧ s.stage = 0#2 ∧ ∀ e ∈ s.host, e.waits = true := by decide

/-- RefinedMachineIsIndistinguishable. -/
theorem witness_refined :
    (absorbing 30#5 0).busy = false ∧ (absorbing 30#5 0).rnd = 0#4 ∧ (absorbing 30#5 0).stage = 0#2 ∧
    (absorbing 30#5 0).fin = false := by decide

/-- ScriptLinesAreRead: two scripts that are read. -/
theorem witness_script : assemble [['#']] = some [] ∧ assemble [['S', 'T', 'A', 'T', 'U', 'S']] = some [.word 0x500#12] := by
  decide +kernel

end Sys2Proof.Tests
end

section
/-! What one step runs, by the host's next act and by whether the core is busy (R7, R159, R160, R205, R211). -/

namespace Sys2Proof.Machine

theorem step_of_fetch_some {s t : State} {i : Instr} (h : s.fetch = (some i, t)) : step s = exec i t := by
  simp only [step, h]

theorem step_of_fetch_none {s t : State} (h : s.fetch = (none, t)) : step s = .next t := by
  simp only [step, h]

theorem ownStep_of_busy {s : State} (hb : s.busy = true) : s.ownStep = some (decodeStage s.stage) := by
  simp [State.ownStep, hb]

theorem ownStep_of_ready {s : State} (hb : s.busy = false) : s.ownStep = none := by
  simp [State.ownStep, hb]

theorem fetch_wait {s : State} {l : List HostEvent} (hh : s.host = .wait :: l) :
    s.fetch = (s.ownStep, { s with host := l }) := by
  simp only [State.fetch, hh]

/-- The act stays in `host`: the core does not take it before it is ready (R159, R205). -/
theorem fetch_of_waits {s : State} {e : HostEvent} {l : List HostEvent} (hb : s.busy = true) (hh : s.host = e :: l)
    (he : e.waits = true) : s.fetch = (s.ownStep, s) := by
  cases e with
  | word w => simp [State.fetch, hh, hb]
  | hash m => simp [State.fetch, hh, hb]
  | digest => simp [State.fetch, hh, hb]
  | reset => simp [State.fetch, hh, hb]
  | resetNow => cases he
  | wait => cases he

theorem step_hash (s : State) (m : List Byte) (l : List HostEvent) (hb : s.busy = false) (hh : s.host = .hash m :: l) :
    step s = exec (.hashScript m) { s with host := l } :=
  step_of_fetch_some (by simp [State.fetch, hh, hb])

theorem step_digest (s : State) (l : List HostEvent) (hb : s.busy = false) (hh : s.host = .digest :: l) :
    step s = exec .digest { s with host := l } :=
  step_of_fetch_some (by simp [State.fetch, hh, hb])

theorem step_reset (s : State) (l : List HostEvent) (hb : s.busy = false) (hh : s.host = .reset :: l) :
    step s = exec .reset { s with host := l } :=
  step_of_fetch_some (by simp [State.fetch, hh, hb])

/-- Of a core that is ready and of one that is busy: a reset at once waits for nothing (R200, R211). -/
theorem step_resetNow (s : State) (l : List HostEvent) (hh : s.host = .resetNow :: l) :
    step s = exec .reset { s with host := l } :=
  step_of_fetch_some (by simp only [State.fetch, hh])

theorem step_busy_of_waits (s : State) (e : HostEvent) (l : List HostEvent) (hb : s.busy = true) (hh : s.host = e :: l)
    (he : e.waits = true) : step s = exec (decodeStage s.stage) s :=
  step_of_fetch_some (by rw [fetch_of_waits hb hh he, ownStep_of_busy hb])

theorem step_busy_wait (s : State) (l : List HostEvent) (hb : s.busy = true) (hh : s.host = .wait :: l) :
    step s = exec (decodeStage s.stage) { s with host := l } :=
  step_of_fetch_some (by rw [fetch_wait hh, ownStep_of_busy hb])

theorem step_ready_wait (s : State) (l : List HostEvent) (hb : s.busy = false) (hh : s.host = .wait :: l) :
    step s = .next { s with host := l } :=
  step_of_fetch_none (by rw [fetch_wait hh, ownStep_of_ready hb])

/-- Settles O6: each clause is the lemma for its act. -/
theorem stepRunsTheDecodedOperation : Obligations.StepRunsTheDecodedOperation := by
  unfold Obligations.StepRunsTheDecodedOperation
  refine ⟨step_word, step_hash, step_digest, step_reset, step_resetNow, ?_, step_busy_of_waits, step_busy_wait, step_idle,
    step_ready_wait⟩
  intro s hb hh
  exact step_busy s hb (by simp [hh])

end Sys2Proof.Machine
end

section
/-! The invariants of R33: what the core's shared operations, its commands and its steps keep of them. -/

namespace Sys2Proof.Machine

/-- The invariants speak of no nibble of `S`, of nothing of the host's, and of no function's value. -/
theorem State.Inv.withData {s : State} (hs : s.Inv) (S : NibState) (host : List HostEvent) (rsps : List Response)
    (value : FnValue) : ({ s with S := S, host := host, rsps := rsps, value := value } : State).Inv where
  posEven := hs.posEven
  posAtMost30 := hs.posAtMost30
  posZero := hs.posZero
  fcodeFault := hs.fcodeFault
  atRest := hs.atRest
  runningInAbsorb := hs.runningInAbsorb
  commandLevelAtRest := hs.commandLevelAtRest

theorem State.Inv.withS {s : State} (hs : s.Inv) (S : NibState) : ({ s with S := S } : State).Inv :=
  hs.withData S s.host s.rsps s.value

theorem State.Inv.withHost {s : State} (hs : s.Inv) (l : List HostEvent) : ({ s with host := l } : State).Inv :=
  hs.withData s.S l s.rsps s.value

theorem State.Inv.respond {s : State} (hs : s.Inv) (st : BitVec 4) (d : Byte) : (s.respond st d).Inv :=
  hs.withData s.S s.host _ s.value

theorem State.Inv.ready_fcode {s : State} (hs : s.Inv) (hr : s.ready) : s.fcode = .none :=
  hs.fcodeFault.mpr hr.2

/-- A core at rest with an empty block: after reset, START, and the end of a Permutation. -/
theorem State.Inv.of_blockEmpty {t : State} (hpos : t.pos = 0#5) (hf : t.fcode = .none) (hp : t.phase ≠ .fault)
    (hb : t.busy = false) (hseq : t.rnd = 0#4 ∧ t.stage = 0#2 ∧ t.fin = false) : t.Inv where
  posEven := by simp [hpos]
  posAtMost30 := by simp [hpos]
  posZero := fun _ => hpos
  fcodeFault := by simp [hf, hp]
  atRest := fun _ => hseq
  runningInAbsorb := by simp [hb]
  commandLevelAtRest := fun _ => hb

/-- ABSORB's move of `pos` inside an open block. -/
theorem State.Inv.withPos {s : State} (hs : s.Inv) (hp : s.phase = .absorb) (p : BitVec 5) (heven : p.toNat % 2 = 0) :
    ({ s with pos := p } : State).Inv where
  posEven := heven
  posAtMost30 := by have := p.isLt; show p.toNat ≤ 30; omega
  posZero := by simp [hp]
  fcodeFault := hs.fcodeFault
  atRest := hs.atRest
  runningInAbsorb := hs.runningInAbsorb
  commandLevelAtRest := hs.commandLevelAtRest

/-- The refined machine's sequencer, started or going on (R159, R161). -/
theorem State.Inv.withSequencer {s : State} (hs : s.Inv) (hp : s.phase = .absorb) (hl : s.level = .micro)
    (r : BitVec 4) (v : BitVec 2) (f : Bool) :
    ({ s with busy := true, rnd := r, stage := v, fin := f } : State).Inv where
  posEven := hs.posEven
  posAtMost30 := hs.posAtMost30
  posZero := hs.posZero
  fcodeFault := hs.fcodeFault
  atRest := by simp
  runningInAbsorb := fun _ => hp
  commandLevelAtRest := by simp [hl]

/-- Entering FAULT (R182) writes `phase` and `fcode` together. -/
theorem State.Inv.raiseFault {s : State} (hs : s.Inv) (hb : s.busy = false) {c : FaultCode} (hc : c ≠ .none) :
    (s.raiseFault c).Inv where
  posEven := hs.posEven
  posAtMost30 := hs.posAtMost30
  posZero := by simp
  fcodeFault := by simp [hc]
  atRest := hs.atRest
  runningInAbsorb := by simp [hb]
  commandLevelAtRest := hs.commandLevelAtRest

theorem State.Inv.resetEvent (s : State) : s.resetEvent.Inv :=
  .of_blockEmpty rfl rfl (by simp) rfl ⟨rfl, rfl, rfl⟩

theorem State.Inv.closeBlock {s : State} (hs : s.Inv) (hb : s.busy = false) (hp : s.phase = .absorb) (final : Bool) :
    (s.closeBlock final).Inv := by
  have hf : s.fcode = .none := hs.ready_fcode ⟨hb, by simp [hp]⟩
  cases hl : s.level with
  | command =>
    rw [closeBlock_command s final hl]
    exact .of_blockEmpty (by simp) (by simp [hf]) (by cases final <;> simp [hp]) (by simp [hb]) (by simp [hs.atRest hb])
  | micro =>
    rw [closeBlock_micro s final hl]
    exact hs.withSequencer hp hl _ _ _

theorem State.Inv.advance {s : State} (hs : s.Inv) : s.advance.Inv := by
  cases hb : s.busy with
  | false => rwa [advance_idle s hb]
  | true =>
    have hp : s.phase = .absorb := hs.runningInAbsorb hb
    have hl : s.level = .micro := by
      cases hl : s.level with
      | command => simp [hs.commandLevelAtRest hl] at hb
      | micro => rfl
    by_cases hv : s.stage = 3#2
    · by_cases hr : s.rnd = 15#4
      · rw [advance_last s hb hv hr]
        have hf : s.fcode = .none := hs.fcodeFault.mpr (by simp [hp])
        exact .of_blockEmpty (by simp) (by simp [hf]) (by cases s.fin <;> simp [hp]) (by simp) (by simp)
      · rw [advance_round s hb hv hr, hb]
        exact hs.withSequencer hp hl _ _ _
    · rw [advance_stage s hb hv, hb]
      exact hs.withSequencer hp hl _ _ _

theorem startCommand_inv {s : State} (hs : s.Inv) (hr : s.ready) : (startCommand s).Inv := by
  unfold startCommand
  exact .of_blockEmpty (by simp) (by simp [hs.ready_fcode hr]) (by simp) (by simp [hr.1]) (by simp [hs.atRest hr.1])

theorem absorbCommand_inv (d : Byte) {s : State} (hs : s.Inv) (hr : s.ready) : (absorbCommand d s).Inv := by
  by_cases hp : s.phase = .absorb
  · by_cases hpos : s.pos = 30#5
    · rw [absorbCommand_close d s hp hpos]
      exact (hs.withS _).closeBlock (by simp [hr.1]) (by simp [hp]) false
    · rw [absorbCommand_open d s hp hpos]
      have heven : (s.pos + 2#5).toNat % 2 = 0 := by
        have := hs.posEven
        rw [BitVec.toNat_add, BitVec.toNat_ofNat]
        omega
      exact ((hs.withS _).withPos (by simp [hp]) _ heven).respond _ _
  · rw [absorbCommand_fault d s hp]
    exact hs.raiseFault hr.1 (by decide)

theorem finalCommand_inv {s : State} (hs : s.Inv) (hr : s.ready) : (finalCommand s).Inv := by
  by_cases hp : s.phase = .absorb
  · rw [finalCommand_absorb s hp]
    exact (hs.withS _).closeBlock (by simp [hr.1]) (by simp [hp]) true
  · rw [finalCommand_fault s hp]
    exact hs.raiseFault hr.1 (by decide)

theorem squeezeCommand_inv (i : BitVec 5) {s : State} (hs : s.Inv) (hr : s.ready) : (squeezeCommand i s).Inv := by
  by_cases hp : s.phase = .done
  · rw [squeezeCommand_done i s hp]
    exact hs.respond _ _
  · rw [squeezeCommand_fault i s hp]
    exact hs.raiseFault hr.1 (by decide)

theorem illegal_inv {s : State} (hs : s.Inv) (hr : s.ready) : (s.raiseFault .illegalCmd).Inv :=
  hs.raiseFault hr.1 (by decide)

theorem inv_of_next_eq {s t : State} (hs : s.Inv) (h : (.next s : Result) = .next t) : t.Inv := by
  cases h
  exact hs

theorem serve_keeps_inv {s t : State} {f : State → State} (hs : s.Inv) (hf : s.ready → (f s).Inv)
    (h : s.serve f = .next t) : t.Inv := by
  obtain ⟨-, e⟩ | ⟨-, -, e⟩ | ⟨hb, hp, e⟩ := serve_cases s f <;> rw [e] at h
  · exact inv_of_next_eq hs h
  · exact inv_of_next_eq (hs.respond _ _) h
  · exact inv_of_next_eq (hf ⟨hb, hp⟩) h

theorem execStatus_keeps_inv {s t : State} (hs : s.Inv) (h : execStatus s = .next t) : t.Inv := by
  unfold execStatus at h
  split at h
  · exact inv_of_next_eq hs h
  · exact inv_of_next_eq (hs.respond _ _) h

theorem microStep_keeps_inv {s t : State} {layer : NibState → NibState} (hs : s.Inv)
    (h : (.next (s.microStep layer) : Result) = .next t) : t.Inv :=
  inv_of_next_eq (hs.withS _).advance h

theorem applyS_keeps_inv {s t : State} {f : NibState → NibState} (hs : s.Inv) (h : s.applyS f = .next t) : t.Inv :=
  inv_of_next_eq (hs.withS _) h

theorem answer_keeps_inv {s t : State} {v : FnValue} (hs : s.Inv) (h : s.answer v = .next t) : t.Inv :=
  inv_of_next_eq (hs.withData s.S s.host s.rsps v) h

theorem giveWords_keeps_inv {s t : State} {ws : List Command} (hs : s.Inv)
    (h : (.next (s.giveWords ws) : Result) = .next t) : t.Inv :=
  inv_of_next_eq (hs.withHost _) h

theorem exec_keeps_inv (i : Instr) {s t : State} (hs : s.Inv) (h : exec i s = .next t) : t.Inv := by
  cases i with
  | start => exact serve_keeps_inv hs (startCommand_inv hs) h
  | absorb d => exact serve_keeps_inv hs (absorbCommand_inv d hs) h
  | final => exact serve_keeps_inv hs (finalCommand_inv hs) h
  | squeeze k => exact serve_keeps_inv hs (squeezeCommand_inv k hs) h
  | status => exact execStatus_keeps_inv hs h
  | illegal w => exact serve_keeps_inv (f := fun u => u.raiseFault .illegalCmd) hs (illegal_inv hs) h
  | subNibbles | permuteNibbles | mixColumns | addConstant => exact microStep_keeps_inv hs h
  | round _ | permutation => exact applyS_keeps_inv hs h
  | padInPlace pos => exact applyS_keeps_inv (f := fun S => padInPlace S pos) hs h
  | absorbBlock p => exact applyS_keeps_inv (f := fun S => absorbBlock S p) hs h
  | add16 _ _ | encodeByte _ | encodeMessage _ | pad _ | decodeByte _ | hash _ => exact answer_keeps_inv hs h
  | hashScript _ | digest => exact giveWords_keeps_inv hs h
  | reset => exact inv_of_next_eq (State.Inv.resetEvent s) h

theorem step_keeps_inv {s t : State} (hs : s.Inv) (h : step s = .next t) : t.Inv := by
  obtain ⟨-, l, e⟩ | ⟨-, l, e⟩ | ⟨-, w, l, e⟩ | ⟨-, m, l, e⟩ | ⟨-, l, e⟩ | ⟨l, e⟩ := step_cases s <;> rw [e] at h
  · exact inv_of_next_eq (hs.withHost l) h
  all_goals exact exec_keeps_inv _ (hs.withHost l) h

/-- Settles O47: each operation is one of the shared ones, and a step runs an operation after the host's act is taken. -/
theorem invariantIsKept : Obligations.InvariantIsKept := by
  unfold Obligations.InvariantIsKept
  exact ⟨fun i _ _ => exec_keeps_inv i, fun _ _ => step_keeps_inv⟩

/-- Settles O46: reset is what the reset event makes of it. -/
theorem invariantHoldsAtReset : Obligations.InvariantHoldsAtReset := by
  unfold Obligations.InvariantHoldsAtReset
  exact State.Inv.resetEvent State.reset

end Sys2Proof.Machine
end

section
/-! The registers after reset (R32, R200). -/

namespace Sys2Proof.Machine

theorem exec_reset (s : State) : exec .reset s = .next s.resetEvent := rfl

/-- Settles O44: the reset event, field by field; that it comes at once is `step_resetNow`. -/
theorem resetGivesEveryRegisterItsValue : Obligations.ResetGivesEveryRegisterItsValue := by
  unfold Obligations.ResetGivesEveryRegisterItsValue
  refine ⟨⟨fun i => zeroState_get i.val i.isLt, rfl, rfl, rfl, rfl, rfl, rfl, rfl, by decide⟩, ?_, step_resetNow⟩
  exact fun s => ⟨s.resetEvent, exec_reset s, rfl, rfl, rfl, rfl, rfl, rfl, rfl, rfl, rfl⟩

end Sys2Proof.Machine
end

section
/-! The open block's position along a run of ABSORB commands (R24) on the command-level machine. -/

namespace Sys2Proof.Machine

theorem step_start {s : State} {l : List HostEvent} (hr : s.ready) (hh : s.host = .word 0x100#12 :: l) :
    step s = .next (startCommand { s with host := l }) := by
  rw [step_word s _ l hr.1 hh, decodeCommand_start]
  exact serve_ready _ startCommand hr

theorem step_absorb {s : State} {d : Byte} {l : List HostEvent} (hr : s.ready)
    (hh : s.host = .word (0x200#12 + d.setWidth 12) :: l) :
    step s = .next (absorbCommand d { s with host := l }) := by
  rw [step_word s _ l hr.1 hh, decodeCommand_absorb]
  exact serve_ready _ (absorbCommand d) hr

/-- What ABSORB does to the registers beside `S`. The close of a block is no exception: `30 + 2` is 0 on 5 bits. -/
theorem absorbCommand_registers (d : Byte) {s : State} (hp : s.phase = .absorb) (hl : s.level = .command) :
    (absorbCommand d s).pos = s.pos + 2#5 ∧ (absorbCommand d s).phase = .absorb ∧
    (absorbCommand d s).busy = s.busy ∧ (absorbCommand d s).level = .command ∧ (absorbCommand d s).host = s.host := by
  by_cases hpos : s.pos = 30#5
  · rw [absorbCommand_close d s hp hpos, closeBlock_command _ false (by simp [hl])]
    simp [hpos, hp, hl]
  · rw [absorbCommand_open d s hp hpos]
    simp [hp, hl]

theorem step_absorb_registers {s : State} {d : Byte} {l : List HostEvent} (hb : s.busy = false) (hp : s.phase = .absorb)
    (hl : s.level = .command) (hh : s.host = .word (0x200#12 + d.setWidth 12) :: l) :
    ∃ u : State, step s = .next u ∧ u.pos = s.pos + 2#5 ∧ u.phase = .absorb ∧ u.busy = false ∧ u.level = .command ∧
      u.host = l := by
  obtain ⟨epos, ephase, ebusy, elevel, ehost⟩ := absorbCommand_registers d (s := { s with host := l }) hp hl
  exact ⟨_, step_absorb ⟨hb, by simp [hp]⟩ hh, epos, ephase, ebusy.trans hb, elevel, ehost⟩

theorem run_absorbs_pos (ds : List Byte) (l : List HostEvent) {s : State} (hb : s.busy = false) (hp : s.phase = .absorb)
    (hl : s.level = .command) (hh : s.host = (ds.map fun d => .word (0x200#12 + d.setWidth 12)) ++ l) :
    ∃ t : State, Sys2Proof.core.run ds.length s = .next t ∧ t.pos.toNat = (s.pos.toNat + 2 * ds.length) % 32 ∧
      t.phase = .absorb ∧ t.host = l := by
  induction ds generalizing s with
  | nil => exact ⟨s, run_zero s, (Nat.mod_eq_of_lt s.pos.isLt).symm, hp, hh⟩
  | cons d ds ih =>
    obtain ⟨u, hstep, upos, uphase, ubusy, ulevel, uhost⟩ := step_absorb_registers hb hp hl hh
    obtain ⟨t, hrun, hpos, hphase, hhost⟩ := ih ubusy uphase ulevel uhost
    refine ⟨t, (run_succ _ hstep).trans hrun, ?_, hphase, hhost⟩
    rw [hpos, upos, BitVec.toNat_add, BitVec.toNat_ofNat, List.length_cons]
    omega

/-- Settles O49: START leaves `pos = 0`, and `run_absorbs_pos` counts on from there. -/
theorem posCountsTheOpenBlock : Obligations.PosCountsTheOpenBlock := by
  unfold Obligations.PosCountsTheOpenBlock
  intro s ds l hr hl hh
  obtain ⟨t, hrun, hpos, hphase, hhost⟩ :=
    run_absorbs_pos ds l (s := startCommand { s with host := (ds.map fun d => .word (0x200#12 + d.setWidth 12)) ++ l })
      hr.1 rfl hl rfl
  refine ⟨t, (run_succ _ (step_start hr hh)).trans hrun, ?_, hphase, hhost⟩
  simpa [startCommand] using hpos

end Sys2Proof.Machine
end

section
/-! The command word and its instruction are each other's code (R60 to R67). -/

namespace Sys2Proof

/-- A word is its opcode and its argument (R60). -/
theorem command_ext {v w : Command} (hop : v.toNat / 256 = w.toNat / 256) (harg : v.toNat % 256 = w.toNat % 256) : v = w :=
  BitVec.eq_of_toNat_eq (by omega)

theorem absorbWord_eq_ofNat (d : Byte) : 0x200#12 + d.setWidth 12 = BitVec.ofNat 12 (0x200 + d.toNat) := by
  apply BitVec.eq_of_toNat_eq
  simp

theorem squeezeWord_eq_ofNat (i : BitVec 5) : 0x400#12 + i.setWidth 12 = BitVec.ofNat 12 (0x400 + i.toNat) := by
  apply BitVec.eq_of_toNat_eq
  simp

theorem absorbWord_toNat (d : Byte) : (0x200#12 + d.setWidth 12).toNat = 0x200 + d.toNat := by
  have := d.isLt
  rw [absorbWord_eq_ofNat, BitVec.toNat_ofNat]
  omega

theorem squeezeWord_toNat (i : BitVec 5) : (0x400#12 + i.setWidth 12).toNat = 0x400 + i.toNat := by
  have := i.isLt
  rw [squeezeWord_eq_ofNat, BitVec.toNat_ofNat]
  omega

theorem decodeCommand_of_op_absorb {w : Command} (h : w.toNat / 256 = 2) :
    decodeCommand w = .absorb (BitVec.ofNat 8 (w.toNat % 256)) := by
  have e : 0x200#12 + (BitVec.ofNat 8 (w.toNat % 256)).setWidth 12 = w :=
    command_ext (by rw [absorbWord_toNat, BitVec.toNat_ofNat]; omega) (by rw [absorbWord_toNat, BitVec.toNat_ofNat]; omega)
  rw [← decodeCommand_absorb, e]

theorem decodeCommand_of_op_squeeze {w : Command} (h : w.toNat / 256 = 4) (harg : w.toNat % 256 < 32) :
    decodeCommand w = .squeeze (BitVec.ofNat 5 (w.toNat % 256)) := by
  have e : 0x400#12 + (BitVec.ofNat 5 (w.toNat % 256)).setWidth 12 = w :=
    command_ext (by rw [squeezeWord_toNat, BitVec.toNat_ofNat]; omega) (by rw [squeezeWord_toNat, BitVec.toNat_ofNat]; omega)
  rw [← decodeCommand_squeeze, e]

theorem decodeCommand_of_not_legal {w : Command} (h : legalWord w = false) : decodeCommand w = .illegal w := by
  obtain ⟨rfl, -⟩ | ⟨d, rfl, -⟩ | ⟨rfl, -⟩ | ⟨i, rfl, -⟩ | ⟨rfl, -⟩ | ⟨-, e⟩ := decodeCommand_cases w
  · exact absurd h (by decide)
  · simp [absorbWord_legal d] at h
  · exact absurd h (by decide)
  · simp [squeezeWord_legal i] at h
  · exact absurd h (by decide)
  · exact e

theorem encode_decodeCommand (w : Command) : encode (decodeCommand w) = some (.command w) := by
  obtain ⟨rfl, e⟩ | ⟨d, rfl, e⟩ | ⟨rfl, e⟩ | ⟨i, rfl, e⟩ | ⟨rfl, e⟩ | ⟨-, e⟩ := decodeCommand_cases w
  all_goals rw [e]; rfl

theorem decodeCommand_wf (w : Command) : (decodeCommand w).wf = true := by
  obtain ⟨-, e⟩ | ⟨d, -, e⟩ | ⟨-, e⟩ | ⟨i, -, e⟩ | ⟨-, e⟩ | ⟨hw, e⟩ := decodeCommand_cases w
  all_goals rw [e]
  exacts [rfl, rfl, rfl, rfl, rfl, by simp [Instr.wf, hw]]

theorem decodeStage_wf : ∀ v : BitVec 2, (decodeStage v).wf = true := by decide

theorem encode_decodeStage : ∀ v : BitVec 2, encode (decodeStage v) = some (.stage v) := by decide

theorem encode_decode (c : Code) : encode (decode c) = some c := by
  cases c with
  | command w => exact encode_decodeCommand w
  | stage v => exact encode_decodeStage v

theorem decode_wf (c : Code) : (decode c).wf = true := by
  cases c with
  | command w => exact decodeCommand_wf w
  | stage v => exact decodeStage_wf v

/-- R67 for an instruction: a function row and a pseudo-command have no code, and an ILLEGAL word is decoded to itself as far
as it is no command. -/
theorem decode_of_encode {i : Instr} {c : Code} (hwf : i.wf = true) (h : encode i = some c) : decode c = i := by
  cases i with
  | start => cases h; exact decodeCommand_start
  | absorb d => cases h; exact decodeCommand_absorb d
  | final => cases h; exact decodeCommand_final
  | squeeze k => cases h; exact decodeCommand_squeeze k
  | status => cases h; exact decodeCommand_status
  | illegal w => cases h; exact decodeCommand_of_not_legal (by simpa [Instr.wf] using hwf)
  | subNibbles | permuteNibbles | mixColumns | addConstant => cases h; rfl
  | _ => cases h

theorem decodeCommand_eq_iff {i : Instr} (hwf : i.wf = true) (w : Command) :
    decodeCommand w = i ↔ encode i = some (.command w) :=
  ⟨fun h => h ▸ encode_decodeCommand w, fun h => decode_of_encode hwf h⟩

/-- Settles O1: the words of each clause are the command's by their two fields, and `encode` and `decode` are inverse. -/
theorem decodeAndEncodeAreInverse : Obligations.DecodeAndEncodeAreInverse := by
  unfold Obligations.DecodeAndEncodeAreInverse
  refine ⟨fun w => ⟨?_, decodeCommand_of_op_absorb, ?_, fun h => decodeCommand_of_op_squeeze h.1 h.2, ?_,
    decodeCommand_of_not_legal⟩, rfl, ?_, rfl, ?_, rfl, fun _ _ => decode_of_encode, fun c => ⟨decode_wf c, encode_decode c⟩⟩
  · rintro ⟨hop, harg⟩
    rw [command_ext (v := w) (w := 0x100#12) hop harg]
    exact decodeCommand_start
  · rintro ⟨hop, harg⟩
    rw [command_ext (v := w) (w := 0x300#12) hop harg]
    exact decodeCommand_final
  · rintro ⟨hop, harg⟩
    rw [command_ext (v := w) (w := 0x500#12) hop harg]
    exact decodeCommand_status
  · exact fun d => by rw [← absorbWord_eq_ofNat]; rfl
  · exact fun i => by rw [← squeezeWord_eq_ofNat]; rfl

/-- Settles O2: the decoder evaluated on the listed words. -/
theorem decodingOfTheSpecsWords : Obligations.DecodingOfTheSpecsWords := by
  unfold Obligations.DecodingOfTheSpecsWords
  decide

/-- Settles O5: a word decodes to a command or to ILLEGAL, and none of these is a layer, a round or the Permutation. -/
theorem onlyTheStageSelectsALayer : Obligations.OnlyTheStageSelectsALayer := by
  unfold Obligations.OnlyTheStageSelectsALayer
  refine ⟨rfl, rfl, rfl, rfl, fun w => ?_⟩
  obtain ⟨-, e⟩ | ⟨d, -, e⟩ | ⟨-, e⟩ | ⟨i, -, e⟩ | ⟨-, e⟩ | ⟨-, e⟩ := decodeCommand_cases w
  all_goals simp [decode, e]

end Sys2Proof
end

section
/-! The opcode map's match and mask (R61), and which words are illegal (R63). -/

namespace Sys2Proof

/-- A mask of the high bits drops the `n` bits below. -/
theorem and_highMask_toNat (w : Command) (n : Nat) :
    (w &&& BitVec.allOnes 12 <<< n).toNat = w.toNat / 2 ^ n * 2 ^ n := by
  have hle : w.toNat / 2 ^ n * 2 ^ n ≤ w.toNat := Nat.div_mul_le_self _ _
  rw [← BitVec.shiftLeft_ushiftRight, BitVec.toNat_shiftLeft, BitVec.toNat_ushiftRight, Nat.shiftLeft_eq,
    Nat.shiftRight_eq_div_pow, Nat.mod_eq_of_lt (hle.trans_lt w.isLt)]

theorem and_opMask_eq_iff (w : Command) : w &&& 0xF00#12 = 0x200#12 ↔ w.toNat / 256 = 2 := by
  have h : (w &&& 0xF00#12).toNat = w.toNat / 256 * 256 := and_highMask_toNat w 8
  rw [← BitVec.toNat_inj, h, BitVec.toNat_ofNat]
  omega

theorem and_squeezeMask_eq_iff (w : Command) :
    w &&& 0xFE0#12 = 0x400#12 ↔ w.toNat / 256 = 4 ∧ w.toNat % 256 < 32 := by
  have h : (w &&& 0xFE0#12).toNat = w.toNat / 32 * 32 := and_highMask_toNat w 5
  rw [← BitVec.toNat_inj, h, BitVec.toNat_ofNat]
  omega

/-- START, FINAL and STATUS: the mask keeps the whole word. -/
theorem and_fullMask_eq_iff {i : Instr} {v : Command} (hwf : i.wf = true) (hv : encode i = some (.command v)) (w : Command) :
    w &&& 0xFFF#12 = v ↔ decodeCommand w = i := by
  have h : w &&& 0xFFF#12 = w := BitVec.and_allOnes
  rw [h, decodeCommand_eq_iff hwf, hv, Option.some_inj, Code.command.injEq, eq_comm]

theorem op_eq_two_iff (w : Command) : w.toNat / 256 = 2 ↔ ∃ d, decodeCommand w = .absorb d := by
  refine ⟨fun h => ⟨_, decodeCommand_of_op_absorb h⟩, fun ⟨d, h⟩ => ?_⟩
  cases (decodeCommand_eq_iff rfl w).mp h
  have hw : (0x200#12 + d.setWidth 12).toNat / 256 = 2 := by rw [absorbWord_toNat]; omega
  exact hw

theorem squeeze_fields_iff (w : Command) :
    w.toNat / 256 = 4 ∧ w.toNat % 256 < 32 ↔ ∃ i, decodeCommand w = .squeeze i := by
  refine ⟨fun h => ⟨_, decodeCommand_of_op_squeeze h.1 h.2⟩, fun ⟨i, h⟩ => ?_⟩
  cases (decodeCommand_eq_iff rfl w).mp h
  have hw : (0x400#12 + i.setWidth 12).toNat / 256 = 4 ∧ (0x400#12 + i.setWidth 12).toNat % 256 < 32 := by
    rw [squeezeWord_toNat]; omega
  exact hw

/-- The illegal words by their fields (R63). -/
theorem not_legalWord_iff (w : Command) : legalWord w = false ↔
    (w.toNat / 256 = 0 ∨ 6 ≤ w.toNat / 256) ∨
    ((w.toNat / 256 = 1 ∨ w.toNat / 256 = 3 ∨ w.toNat / 256 = 5) ∧ w.toNat % 256 ≠ 0) ∨
    (w.toNat / 256 = 4 ∧ 32 ≤ w.toNat % 256) := by
  simp only [legalWord, Bool.or_eq_false_iff, Bool.and_eq_false_iff, beq_eq_false_iff_ne, decide_eq_false_iff_not]
  omega

theorem decodeCommand_eq_illegal_iff (w : Command) : decodeCommand w = .illegal w ↔ legalWord w = false := by
  refine ⟨fun h => ?_, decodeCommand_of_not_legal⟩
  simpa [h, Instr.wf] using decodeCommand_wf w

/-- Both words mask `w` by both masks, so rows that disagree on a bit both look at have no word in common. -/
theorem OpcodeRow.has_both {r₁ r₂ : OpcodeRow} {w : Command} (h₁ : r₁.has w = true) (h₂ : r₂.has w = true) :
    r₁.matchBits &&& r₂.mask = r₂.matchBits &&& r₁.mask := by
  simp only [OpcodeRow.has, beq_iff_eq] at h₁ h₂
  rw [← h₁, ← h₂, BitVec.and_assoc, BitVec.and_assoc, BitVec.and_comm r₁.mask]

theorem opcodeMap_rows_disjoint : ∀ r₁ ∈ opcodeMap, ∀ r₂ ∈ opcodeMap,
    r₁.matchBits &&& r₂.mask = r₂.matchBits &&& r₁.mask → r₁ = r₂ := by
  decide

/-- Settles O3: the masks keep the fields that the decoder looks at, and two rows with a word in common agree under both
masks. -/
theorem opcodeMapSelectsTheCommands : Obligations.OpcodeMapSelectsTheCommands := by
  unfold Obligations.OpcodeMapSelectsTheCommands
  refine ⟨rfl, fun w => ⟨and_fullMask_eq_iff rfl rfl w, (and_opMask_eq_iff w).trans (op_eq_two_iff w),
    and_fullMask_eq_iff rfl rfl w, (and_squeezeMask_eq_iff w).trans (squeeze_fields_iff w), and_fullMask_eq_iff rfl rfl w,
    fun r₁ hr₁ r₂ hr₂ h₁ h₂ => opcodeMap_rows_disjoint r₁ hr₁ r₂ hr₂ (OpcodeRow.has_both h₁ h₂), fun hop => ?_⟩⟩
  exact decodeCommand_of_not_legal ((not_legalWord_iff w).mpr (.inl hop))

theorem countP_legalWord : ((List.range 4096).countP fun n => legalWord (BitVec.ofNat 12 n)) = 291 := by decide +kernel

theorem countP_not_legalWord : ((List.range 4096).countP fun n => !legalWord (BitVec.ofNat 12 n)) = 3805 := by
  have h := List.length_eq_countP_add_countP (fun n => legalWord (BitVec.ofNat 12 n)) (l := List.range 4096)
  rw [countP_legalWord, List.length_range] at h
  simp only [Bool.not_eq_true, Bool.decide_eq_false] at h
  omega

/-- Settles O4: an illegal word is known by its fields, and at a ready core it is served by `raiseFault`. -/
theorem illegalWordsRaiseIllegalCmd : Obligations.IllegalWordsRaiseIllegalCmd := by
  unfold Obligations.IllegalWordsRaiseIllegalCmd
  refine ⟨fun w => (decodeCommand_eq_illegal_iff w).trans (not_legalWord_iff w), countP_legalWord, countP_not_legalWord,
    by decide, by decide, fun w s hr => ?_⟩
  exact Machine.serve_ready s (fun t => t.raiseFault .illegalCmd) hr

end Sys2Proof
end

section
/-! The response to a command word (R64, R65), command by command. -/

namespace Sys2Proof.Machine

/-- From `s` to `t` one response was given, without data: OK, or the code of the fault that `t` is in. -/
def DatalessResponse (s t : State) : Prop :=
  ∃ r, t.rsps = s.rsps ++ [r] ∧ (r = responseWord 0#4 0x00#8 ∨ t.phase = .fault ∧ r = responseWord t.fcode.code 0x00#8)

theorem DatalessResponse.of_ok {s t : State} (h : t.rsps = s.rsps ++ [responseWord 0#4 0x00#8]) : DatalessResponse s t :=
  ⟨_, h, .inl rfl⟩

theorem DatalessResponse.raiseFault (s : State) (c : FaultCode) : DatalessResponse s (s.raiseFault c) :=
  ⟨_, State.raiseFault_rsps s c, .inr ⟨rfl, rfl⟩⟩

theorem DatalessResponse.refused {s : State} (hp : s.phase = .fault) : DatalessResponse s (s.respond s.fcode.code 0x00#8) :=
  ⟨_, State.respond_rsps .., .inr ⟨hp, rfl⟩⟩

/-- Closing a block answers on the command-level machine, whatever was written to `S` before. -/
theorem DatalessResponse.closeBlock {s u : State} (hl : u.level = .command) (hr : u.rsps = s.rsps) (final : Bool) :
    DatalessResponse s (u.closeBlock final) := by
  rw [closeBlock_command u final hl]
  exact .of_ok (by rw [State.respond_rsps, hr])

theorem startCommand_dataless (s : State) : DatalessResponse s (startCommand s) := .of_ok rfl

theorem absorbCommand_dataless (d : Byte) {s : State} (hl : s.level = .command) : DatalessResponse s (absorbCommand d s) := by
  by_cases hp : s.phase = .absorb
  · by_cases hpos : s.pos = 30#5
    · rw [absorbCommand_close d s hp hpos]
      exact .closeBlock (by simp [hl]) (by simp) false
    · rw [absorbCommand_open d s hp hpos]
      exact .of_ok (State.respond_rsps _ _ _)
  · rw [absorbCommand_fault d s hp]
    exact .raiseFault s .seqAbsorb

theorem finalCommand_dataless {s : State} (hl : s.level = .command) : DatalessResponse s (finalCommand s) := by
  by_cases hp : s.phase = .absorb
  · rw [finalCommand_absorb s hp]
    exact .closeBlock (by simp [hl]) (by simp) true
  · rw [finalCommand_fault s hp]
    exact .raiseFault s .seqFinal

theorem squeezeCommand_dataless (i : BitVec 5) {s : State} (hp : s.phase ≠ .done) :
    DatalessResponse s (squeezeCommand i s) := by
  rw [squeezeCommand_fault i s hp]
  exact .raiseFault s .seqSqueeze

theorem serve_dataless {s : State} {f : State → State} (hb : s.busy = false) (hf : DatalessResponse s (f s)) :
    ∃ t, s.serve f = .next t ∧ DatalessResponse s t := by
  obtain ⟨hb', -⟩ | ⟨-, hp, e⟩ | ⟨-, -, e⟩ := serve_cases s f
  · simp [hb] at hb'
  · exact ⟨_, e, .refused hp⟩
  · exact ⟨_, e, hf⟩

theorem exec_squeeze_done (i : BitVec 5) {s : State} (hb : s.busy = false) (hp : s.phase = .done) :
    exec (.squeeze i) s = .next (s.respond 0#4 (decodeByte s.S i)) := by
  have h := serve_ready s (squeezeCommand i) ⟨hb, by simp [hp]⟩
  rwa [squeezeCommand_done i s hp] at h

/-- The response carries data for two commands only: STATUS, and SQUEEZE in DONE. -/
theorem exec_decodeCommand_response (w : Command) {s : State} (hb : s.busy = false) (hl : s.level = .command) :
    (decodeCommand w = .status ∧ exec (decodeCommand w) s = .next (s.respond 0#4 s.statusByte)) ∨
    (∃ i, decodeCommand w = .squeeze i ∧ s.phase = .done ∧
      exec (decodeCommand w) s = .next (s.respond 0#4 (decodeByte s.S i))) ∨
    (decodeCommand w ≠ .status ∧ (s.phase = .done → ∀ i, decodeCommand w ≠ .squeeze i) ∧
      ∃ t, exec (decodeCommand w) s = .next t ∧ DatalessResponse s t) := by
  obtain ⟨-, e⟩ | ⟨d, -, e⟩ | ⟨-, e⟩ | ⟨i, -, e⟩ | ⟨-, e⟩ | ⟨-, e⟩ := decodeCommand_cases w
  all_goals rw [e]
  · exact .inr (.inr ⟨by simp, by simp, serve_dataless hb (startCommand_dataless s)⟩)
  · exact .inr (.inr ⟨by simp, by simp, serve_dataless hb (absorbCommand_dataless d hl)⟩)
  · exact .inr (.inr ⟨by simp, by simp, serve_dataless hb (finalCommand_dataless hl)⟩)
  · by_cases hp : s.phase = .done
    · exact .inr (.inl ⟨i, rfl, hp, exec_squeeze_done i hb hp⟩)
    · exact .inr (.inr ⟨by simp, by simp [hp], serve_dataless hb (squeezeCommand_dataless i hp)⟩)
  · exact .inl ⟨rfl, execStatus_boundary s hb⟩
  · exact .inr (.inr ⟨by simp, by simp, serve_dataless (f := fun t => t.raiseFault .illegalCmd) hb (.raiseFault s _)⟩)

@[simp] theorem statusCode_responseWord (st : BitVec 4) (d : Byte) : statusCode (responseWord st d) = st :=
  BitVec.extractLsb'_append_eq_left

@[simp] theorem dataByte_responseWord (st : BitVec 4) (d : Byte) : dataByte (responseWord st d) = d :=
  BitVec.extractLsb'_append_eq_right

theorem statusCode_append_dataByte (r : Response) : r = statusCode r ++ dataByte r :=
  (BitVec.extractLsb'_append_extractLsb' (w := 4) (len := 8)).symm

theorem FaultCode.code_toNat_le (c : FaultCode) : c.code.toNat ≤ 4 := by
  cases c <;> decide

/-- Settles O43: a command answers with data and status OK, or without data and with the status of the state it leaves. -/
theorem everyWordGetsOneResponse : Obligations.EveryWordGetsOneResponse := by
  unfold Obligations.EveryWordGetsOneResponse
  intro s w l hb hl hh
  rw [step_word s w l hb hh]
  obtain ⟨e, hstep⟩ | ⟨i, e, hp, hstep⟩ | ⟨hstatus, hsqueeze, t, hstep, r, hr, hcase⟩ :=
    exec_decodeCommand_response w (s := { s with host := l }) hb hl
  · exact ⟨_, _, hstep, rfl, statusCode_append_dataByte _, by simp, by simp, by simp [e], fun _ => rfl,
      fun h => absurd e h⟩
  · refine ⟨_, _, hstep, rfl, statusCode_append_dataByte _, by simp, by simp, fun j hj _ => ?_, by simp [e], ?_⟩
    · cases e.symm.trans hj
      rfl
    · rintro - (h | h)
      · exact absurd hp h
      · exact absurd e (h i)
  · refine ⟨t, r, hstep, hr, statusCode_append_dataByte _, ?_, ?_, fun i hi hp => absurd hi (hsqueeze hp i),
      fun h => absurd h hstatus, fun _ _ => ?_⟩
    · obtain rfl | ⟨-, rfl⟩ := hcase <;> simp [FaultCode.code_toNat_le]
    · obtain rfl | ⟨hphase, rfl⟩ := hcase
      · simp
      · simp [hphase]
    · obtain rfl | ⟨-, rfl⟩ := hcase <;> simp

end Sys2Proof.Machine
end

section
/-! A session on the command-level machine (R69, R156): the core after each of its words in closed form, and the run that
the pseudo-commands HASH and DIGEST stand for. -/

namespace Sys2Proof.Machine

/-- The registers that a session's words write. -/
def State.holding (s : State) (S : NibState) (pos : BitVec 5) (phase : Phase) : State :=
  { s with S := S, pos := pos, phase := phase }

/-- The host has given every act before `l`, and taken the responses `rs`. -/
def State.answered (s : State) (l : List HostEvent) (rs : List Response) : State :=
  { s with host := l, rsps := s.rsps ++ rs }

@[simp] theorem holding_pos (s : State) (S : NibState) (p : BitVec 5) (ph : Phase) : (s.holding S p ph).pos = p := rfl
@[simp] theorem holding_phase (s : State) (S : NibState) (p : BitVec 5) (ph : Phase) : (s.holding S p ph).phase = ph := rfl
@[simp] theorem holding_busy (s : State) (S : NibState) (p : BitVec 5) (ph : Phase) : (s.holding S p ph).busy = s.busy := rfl
@[simp] theorem holding_level (s : State) (S : NibState) (p : BitVec 5) (ph : Phase) : (s.holding S p ph).level = s.level := rfl

theorem answered_answered (s : State) (l l' : List HostEvent) (rs rs' : List Response) :
    (s.answered l rs).answered l' rs' = s.answered l' (rs ++ rs') := by
  simp [State.answered]

theorem answered_nil {s : State} {l : List HostEvent} (hh : s.host = l) : s.answered l [] = s := by
  subst hh
  simp [State.answered]

theorem startCommand_eq_holding (s : State) : startCommand s = (s.holding zeroState 0#5 .absorb).respond 0#4 0x00#8 := rfl

theorem absorbCommand_holding_open (d : Byte) (s : State) (S : NibState) {p : BitVec 5} (hp : p ≠ 30#5) :
    absorbCommand d (s.holding S p .absorb) =
      (s.holding (addAt (addAt S (rateIndex p) (hiNibble d)) (rateIndex (p + 1#5)) (loNibble d)) (p + 2#5) .absorb).respond
        0#4 0x00#8 := by
  rw [absorbCommand_open d _ rfl (by simpa using hp)]
  rfl

theorem absorbCommand_holding_close (d : Byte) {s : State} (S : NibState) (hl : s.level = .command) :
    absorbCommand d (s.holding S 30#5 .absorb) =
      (s.holding (permutation (addAt (addAt S (rateIndex 30#5) (hiNibble d)) (rateIndex (30#5 + 1#5)) (loNibble d))) 0#5
        .absorb).respond 0#4 0x00#8 := by
  rw [absorbCommand_close d _ rfl rfl, closeBlock_command _ _ (by simp [hl])]
  rfl

theorem finalCommand_holding {s : State} (S : NibState) (p : BitVec 5) (hl : s.level = .command) :
    finalCommand (s.holding S p .absorb) = (s.holding (permutation (padInPlace S p)) 0#5 .done).respond 0#4 0x00#8 := by
  rw [finalCommand_absorb _ rfl, closeBlock_command _ _ (by simp [hl])]
  rfl

/-- `pos` while the bytes `m` are in (R24). -/
def absorbPos (m : List Byte) : BitVec 5 := BitVec.ofNat 5 (2 * m.length)

theorem absorbPos_toNat (m : List Byte) : (absorbPos m).toNat = 2 * m.length % 32 := BitVec.toNat_ofNat ..

theorem absorbPos_eq_30_iff (m : List Byte) : absorbPos m = 30#5 ↔ m.length % 16 = 15 := by
  rw [← BitVec.toNat_inj, absorbPos_toNat, BitVec.toNat_ofNat]
  omega

theorem absorbPos_snoc (m : List Byte) (d : Byte) : absorbPos (m ++ [d]) = absorbPos m + 2#5 := by
  simp [absorbPos, Nat.mul_add, BitVec.ofNat_add]

/-- ABSORB's two additions to the open block of `m` are `openState_add`'s. -/
theorem addAt_addAt_openState (m : List Byte) (d : Byte) :
    addAt (addAt (openState m) (rateIndex (absorbPos m)) (hiNibble d)) (rateIndex (absorbPos m + 1#5)) (loNibble d) =
      absorbBlock (absorbBlocks (encodeMessage (m ++ [d])) (m.length / 16))
        (blockAt (encodeMessage (m ++ [d])) (m.length / 16)) := by
  have hval : ∀ p : BitVec 5, (rateIndex p).val = p.toNat := fun _ => rfl
  refine openState_add m d _ _ (by rw [hval, absorbPos_toNat]) ?_
  rw [hval, hval, BitVec.toNat_add, absorbPos_toNat, BitVec.toNat_ofNat]
  omega

/-- The core while the bytes `m` of a message are in. -/
def State.absorbed (s : State) (m : List Byte) : State := s.holding (openState m) (absorbPos m) .absorb

theorem startCommand_eq_absorbed (s : State) : startCommand s = (s.absorbed []).respond 0#4 0x00#8 := by
  rw [State.absorbed, openState_nil]
  exact startCommand_eq_holding s

/-- ABSORB keeps the closed form, whether its byte fills the block or not. -/
theorem absorbCommand_absorbed (d : Byte) (m : List Byte) {s : State} (hl : s.level = .command) :
    absorbCommand d (s.absorbed m) = (s.absorbed (m ++ [d])).respond 0#4 0x00#8 := by
  rw [State.absorbed, State.absorbed, absorbPos_snoc]
  by_cases hlen : m.length % 16 = 15
  · have hpos := (absorbPos_eq_30_iff m).mpr hlen
    rw [openState_snoc_close m d hlen, ← addAt_addAt_openState, hpos]
    exact absorbCommand_holding_close d _ hl
  · rw [openState_snoc_open m d hlen, ← addAt_addAt_openState]
    exact absorbCommand_holding_open d s _ (mt (absorbPos_eq_30_iff m).mp hlen)

/-- FINAL after the bytes `m` leaves the state that the digest is read from. -/
theorem finalCommand_absorbed (m : List Byte) {s : State} (hl : s.level = .command) :
    finalCommand (s.absorbed m) = (s.holding (hashState m) 0#5 .done).respond 0#4 0x00#8 := by
  rw [State.absorbed, ← openState_final m (absorbPos m) (absorbPos_toNat m)]
  exact finalCommand_holding _ _ hl

/-- A step that takes the host's act and writes only what a session's words write, then answers. -/
theorem respond_holding_withHost (s : State) (l : List HostEvent) (S : NibState) (p : BitVec 5) (ph : Phase)
    (st : BitVec 4) (d : Byte) :
    (({ s with host := l } : State).holding S p ph).respond st d = (s.answered l [responseWord st d]).holding S p ph := rfl

theorem holding_ready {s : State} (S : NibState) (p : BitVec 5) (hb : s.busy = false) : (s.holding S p .absorb).ready :=
  ⟨hb, by simp⟩

theorem step_absorb_holding {s : State} {l : List HostEvent} {d : Byte} (S : NibState) (p : BitVec 5) (hb : s.busy = false)
    (hh : s.host = .word (0x200#12 + d.setWidth 12) :: l) :
    step (s.holding S p .absorb) = .next (absorbCommand d (({ s with host := l } : State).holding S p .absorb)) :=
  step_absorb (holding_ready S p hb) hh

theorem step_final {s : State} {l : List HostEvent} (hr : s.ready) (hh : s.host = .word 0x300#12 :: l) :
    step s = .next (finalCommand { s with host := l }) := by
  rw [step_word s _ l hr.1 hh, decodeCommand_final]
  exact serve_ready _ finalCommand hr

theorem step_final_holding {s : State} {l : List HostEvent} (S : NibState) (p : BitVec 5) (hb : s.busy = false)
    (hh : s.host = .word 0x300#12 :: l) :
    step (s.holding S p .absorb) = .next (finalCommand (({ s with host := l } : State).holding S p .absorb)) :=
  step_final (holding_ready S p hb) hh

theorem step_start_absorbed {s : State} {l : List HostEvent} (hr : s.ready) (hh : s.host = .word 0x100#12 :: l) :
    step s = .next ((s.answered l [0x000#12]).absorbed []) := by
  rw [step_start hr hh, startCommand_eq_absorbed, State.absorbed, respond_holding_withHost]
  rfl

theorem step_absorbed {s : State} {l : List HostEvent} {d : Byte} (m : List Byte) (hb : s.busy = false)
    (hl : s.level = .command) (hh : s.host = .word (0x200#12 + d.setWidth 12) :: l) :
    step (s.absorbed m) = .next ((s.answered l [0x000#12]).absorbed (m ++ [d])) := by
  have e := absorbCommand_absorbed d m (s := { s with host := l }) hl
  rw [State.absorbed, State.absorbed, respond_holding_withHost] at e
  rw [State.absorbed, step_absorb_holding _ _ hb hh, e]
  rfl

theorem step_final_absorbed {s : State} {l : List HostEvent} (m : List Byte) (hb : s.busy = false)
    (hl : s.level = .command) (hh : s.host = .word 0x300#12 :: l) :
    step (s.absorbed m) = .next ((s.answered l [0x000#12]).holding (hashState m) 0#5 .done) := by
  have e := finalCommand_absorbed m (s := { s with host := l }) hl
  rw [State.absorbed, respond_holding_withHost] at e
  rw [State.absorbed, step_final_holding _ _ hb hh, e]
  rfl

theorem step_squeeze {s : State} {i : BitVec 5} {l : List HostEvent} (hb : s.busy = false) (hp : s.phase = .done)
    (hh : s.host = .word (0x400#12 + i.setWidth 12) :: l) :
    step s = .next (s.answered l [responseWord 0#4 (decodeByte s.S i)]) := by
  rw [step_word s _ l hb hh, decodeCommand_squeeze]
  exact exec_squeeze_done i hb hp

/-- ABSORB of each byte, as acts of the host. -/
def absorbEvents (ds : List Byte) : List HostEvent := ds.map fun d => .word (0x200#12 + d.setWidth 12)

/-- SQUEEZE of each index, as acts of the host. -/
def squeezeEvents (is : List (BitVec 5)) : List HostEvent := is.map fun i => .word (0x400#12 + i.setWidth 12)

theorem run_absorbs (ds : List Byte) (l : List HostEvent) {s : State} (m : List Byte) (hb : s.busy = false)
    (hl : s.level = .command) (hh : s.host = absorbEvents ds ++ l) :
    Sys2Proof.core.run ds.length (s.absorbed m) =
      .next ((s.answered l (List.replicate ds.length 0x000#12)).absorbed (m ++ ds)) := by
  induction ds generalizing s m with
  | nil =>
    have e : s.answered l (List.replicate ([] : List Byte).length 0x000#12) = s := answered_nil hh
    rw [e, List.append_nil]
    exact run_zero _
  | cons d ds ih =>
    have hrest := ih (s := s.answered (absorbEvents ds ++ l) [0x000#12]) (m ++ [d]) hb hl rfl
    rw [answered_answered, List.append_assoc] at hrest
    exact (run_succ _ (step_absorbed m hb hl hh)).trans hrest

theorem run_squeezes (is : List (BitVec 5)) (l : List HostEvent) {s : State} (hb : s.busy = false) (hp : s.phase = .done)
    (hh : s.host = squeezeEvents is ++ l) :
    Sys2Proof.core.run is.length s =
      .next (s.answered l (is.map fun i => responseWord 0#4 (decodeByte s.S i))) := by
  induction is generalizing s with
  | nil =>
    have e : s.answered l [] = s := answered_nil hh
    rw [List.map_nil, e]
    exact run_zero s
  | cons i is ih =>
    have hrest := ih (s := s.answered (squeezeEvents is ++ l) [responseWord 0#4 (decodeByte s.S i)]) hb hp rfl
    rw [answered_answered] at hrest
    exact (run_succ _ (step_squeeze hb hp hh)).trans hrest

/-- START, the bytes of `m`, FINAL: every response is OK, and the core then holds the hash. -/
theorem run_session (m : List Byte) (l : List HostEvent) {s : State} (hr : s.ready) (hl : s.level = .command)
    (hh : s.host = .word 0x100#12 :: (absorbEvents m ++ .word 0x300#12 :: l)) :
    Sys2Proof.core.run (m.length + 2) s =
      .next ((s.answered l (List.replicate (m.length + 2) 0x000#12)).holding (hashState m) 0#5 .done) := by
  have habsorbs := run_absorbs m (.word 0x300#12 :: l) (s := s.answered (absorbEvents m ++ .word 0x300#12 :: l) [0x000#12])
    [] hr.1 hl rfl
  rw [answered_answered] at habsorbs
  have hfinal := step_final_absorbed (l := l) m
    (s := s.answered (.word 0x300#12 :: l) ([0x000#12] ++ List.replicate m.length 0x000#12)) hr.1 hl rfl
  rw [answered_answered, List.append_assoc, ← List.replicate_succ', ← List.replicate_one, List.replicate_append_replicate,
    Nat.add_comm 1] at hfinal
  exact (run_succ (m.length + 1) (step_start_absorbed hr hh)).trans ((run_add _ 1 habsorbs).trans (run_succ 0 hfinal))

theorem exec_hashScript (m : List Byte) (s : State) :
    exec (.hashScript m) s = .next { s with host := .word 0x100#12 :: (absorbEvents m ++ .word 0x300#12 :: s.host) } := by
  simp [exec, execHashScript, State.giveWords, sessionWords, absorbEvents]

/-- The 32 indices of a digest's bytes. -/
def digestIndices : List (BitVec 5) := (List.range 32).map (BitVec.ofNat 5)

theorem digestWords_eq : digestWords.map HostEvent.word = squeezeEvents digestIndices := by decide

theorem squeezeEvents_digestIndices :
    squeezeEvents digestIndices = (List.range 32).map fun i => .word (BitVec.ofNat 12 (0x400 + i)) := by decide

theorem exec_digest (s : State) : exec .digest s = .next { s with host := squeezeEvents digestIndices ++ s.host } := by
  simp [exec, execDigest, State.giveWords, digestWords_eq]

theorem digest_responses (S : NibState) :
    digestIndices.map (fun i => responseWord 0#4 (decodeByte S i)) = (decodeDigest S).map fun b => 0#4 ++ b := by
  rw [digestIndices, decodeDigest, List.map_map, List.map_map]
  rfl

/-- The expansion of DIGEST and its 32 responses, in DONE. -/
theorem run_digest {s : State} (l : List HostEvent) (hb : s.busy = false) (hp : s.phase = .done)
    (hh : s.host = .digest :: l) :
    Sys2Proof.core.run 33 s = .next (s.answered l ((decodeDigest s.S).map fun b => 0#4 ++ b)) := by
  have hsqueezes := run_squeezes digestIndices l (s := { s with host := squeezeEvents digestIndices ++ l }) hb hp rfl
  rw [digest_responses] at hsqueezes
  exact (run_succ 32 ((step_digest s l hb hh).trans (exec_digest _))).trans hsqueezes

/-- The expansion of HASH, and the session that it stands for. -/
theorem run_hash (m : List Byte) (l : List HostEvent) {s : State} (hr : s.ready) (hl : s.level = .command)
    (hh : s.host = .hash m :: l) :
    Sys2Proof.core.run (m.length + 3) s =
      .next ((s.answered l (List.replicate (m.length + 2) 0x000#12)).holding (hashState m) 0#5 .done) := by
  have hstep := (step_hash s m l hr.1 hh).trans (exec_hashScript m _)
  exact (run_succ (m.length + 2) hstep).trans (run_session m l hr hl rfl)

/-- Settles O51: the session that HASH stands for leaves `hashState m` in `S`, and DIGEST reads its bytes. -/
theorem hashThenDigestIsTheOneShotHash : Obligations.HashThenDigestIsTheOneShotHash := by
  unfold Obligations.HashThenDigestIsTheOneShotHash
  refine ⟨fun m s => ?_, fun s => ?_, exec_reset, fun s m l hr hl hh => ?_⟩
  · rw [exec_hashScript]
    simp [absorbEvents, absorbWord_eq_ofNat]
  · rw [exec_digest, squeezeEvents_digestIndices]
  · have hhash := run_hash m (.digest :: l) hr hl hh
    have hdigest := run_digest l (s := (s.answered (.digest :: l) (List.replicate (m.length + 2) 0x000#12)).holding
      (hashState m) 0#5 .done) hr.1 rfl rfl
    exact ⟨_, (run_add _ 33 hhash).trans hdigest, rfl, rfl, rfl⟩

end Sys2Proof.Machine
end

section
/-! The text of a script (R68, R69, R71): a line's words, its digits, and what each line stands for. -/

namespace Sys2Proof.Machine

/-- A character that stands in a word of a line: no blank, and no start of a comment. -/
def wordChar (c : Char) : Bool := !(c == '#' || c == ' ' || c == '\t')

/-- A word of a line. -/
def lineWord (t : List Char) : Bool := !t.isEmpty && t.all wordChar

/-- The words of a line in the line's text, a blank between two. -/
def lineOf : List (List Char) → List Char
  | [] => []
  | [t] => t
  | t :: u :: ts => t ++ ' ' :: lineOf (u :: ts)

theorem withoutComment_word_append {t : List Char} (ht : t.all wordChar = true) (cs : List Char) :
    withoutComment (t ++ cs) = t ++ withoutComment cs := by
  induction t with
  | nil => rfl
  | cons c t ih =>
    obtain ⟨hc, ht⟩ : wordChar c = true ∧ t.all wordChar = true := by simpa using ht
    have hne : c ≠ '#' := by rintro rfl; exact absurd hc (by decide)
    rw [List.cons_append, withoutComment, if_neg hne, ih ht, List.cons_append]

theorem tokensFrom_word_append {t : List Char} (ht : t.all wordChar = true) (cur cs : List Char) :
    tokensFrom cur (t ++ cs) = tokensFrom (t.reverse ++ cur) cs := by
  induction t generalizing cur with
  | nil => rfl
  | cons c t ih =>
    obtain ⟨hc, ht⟩ : wordChar c = true ∧ t.all wordChar = true := by simpa using ht
    have hne : ¬(c = ' ' ∨ c = '\t') := by rintro (rfl | rfl) <;> exact absurd hc (by decide)
    rw [List.cons_append, tokensFrom, if_neg hne, ih ht, List.reverse_cons, List.append_assoc]
    rfl

/-- A line is read as the words that are in it. -/
theorem tokens_lineOf {ts : List (List Char)} (hts : ts.all lineWord = true) :
    tokensFrom [] (withoutComment (lineOf ts)) = ts := by
  induction ts with
  | nil => rfl
  | cons t ts ih =>
    obtain ⟨ht, hts⟩ : lineWord t = true ∧ ts.all lineWord = true := by simpa using hts
    obtain ⟨hne, hall⟩ : t ≠ [] ∧ t.all wordChar = true := by simpa [lineWord] using ht
    have hcur : t.reverse ++ [] ≠ [] := by simpa using hne
    cases ts with
    | nil =>
      have e : lineOf [t] = t ++ [] := (List.append_nil t).symm
      rw [e, withoutComment_word_append hall, withoutComment, tokensFrom_word_append hall, tokensFrom, if_neg hcur]
      simp
    | cons u us =>
      have hblank : withoutComment (' ' :: lineOf (u :: us)) = ' ' :: withoutComment (lineOf (u :: us)) := by
        simp [withoutComment]
      rw [lineOf, withoutComment_word_append hall, tokensFrom_word_append hall, hblank, tokensFrom, if_pos (.inl rfl),
        if_neg hcur, ih hts]
      simp

theorem splitArrow_no_arrow {ts : List (List Char)} (h : ['-', '>'] ∉ ts) : splitArrow ts = (ts, none) := by
  induction ts with
  | nil => rfl
  | cons t ts ih =>
    obtain ⟨hne, hrest⟩ : ['-', '>'] ≠ t ∧ ['-', '>'] ∉ ts := by simpa using h
    rw [splitArrow, if_neg hne.symm, ih hrest]

theorem splitArrow_arrow {ts : List (List Char)} (h : ['-', '>'] ∉ ts) (us : List (List Char)) :
    splitArrow (ts ++ ['-', '>'] :: us) = (ts, some us) := by
  induction ts with
  | nil => simp [splitArrow]
  | cons t ts ih =>
    obtain ⟨hne, hrest⟩ : ['-', '>'] ≠ t ∧ ['-', '>'] ∉ ts := by simpa using h
    rw [List.cons_append, splitArrow, if_neg hne.symm, ih hrest]

/-- A line that states no response is read as its words are. -/
theorem parseLine_lineOf {ts : List (List Char)} (hts : ts.all lineWord = true) (harrow : ['-', '>'] ∉ ts) :
    parseLine (lineOf ts) = (eventOf ts).map fun ev => ⟨ev, none⟩ := by
  simp only [parseLine, tokens_lineOf hts, splitArrow_no_arrow harrow, expectOf]
  cases eventOf ts <;> rfl

/-- A line that states a response is read as its words before `->` are, with that response. -/
theorem parseLine_lineOf_response {ts us : List (List Char)} {ev : Option HostEvent} {r : Option Response}
    (hts : (ts ++ ['-', '>'] :: us).all lineWord = true) (harrow : ['-', '>'] ∉ ts) (hev : eventOf ts = some ev)
    (hr : expectOf (some us) = some r) : parseLine (lineOf (ts ++ ['-', '>'] :: us)) = some ⟨ev, r⟩ := by
  simp only [parseLine, tokens_lineOf hts, splitArrow_arrow harrow, hev, hr]

theorem hexDigit_wordChar : ∀ v : Nib, wordChar (hexDigit v) = true := by decide

theorem hexDigit_ne_dash : ∀ v : Nib, hexDigit v ≠ '-' := by decide

theorem hexValue_hexDigit : ∀ v : Nib, hexValue (hexDigit v) = some v.toNat := by decide

theorem decimalDigit_wordChar : ∀ t : Fin 10, wordChar (Char.ofNat (48 + t.val)) = true := by decide

theorem decimalDigit_ne_dash : ∀ t : Fin 10, '-' ≠ Char.ofNat (48 + t.val) := by decide

theorem decimalDigit_ne_x : ∀ t : Fin 10, Char.ofNat (48 + t.val) ≠ 'x' := by decide

theorem hexValue_decimalDigit : ∀ t : Fin 10, hexValue (Char.ofNat (48 + t.val)) = some t.val := by decide

theorem digitsValue_hexDigit (acc : Nat) (v : Nib) (cs : List Char) :
    digitsValue 16 acc (hexDigit v :: cs) = digitsValue 16 (16 * acc + v.toNat) cs := by
  simp [digitsValue, hexValue_hexDigit, v.isLt]

theorem digitsValue_decimalDigit (acc : Nat) (t : Fin 10) (cs : List Char) :
    digitsValue 10 acc (Char.ofNat (48 + t.val) :: cs) = digitsValue 10 (10 * acc + t.val) cs := by
  simp [digitsValue, hexValue_decimalDigit]

theorem numberOf_hex (c : Char) (cs : List Char) : numberOf ('0' :: 'x' :: c :: cs) = digitsValue 16 0 (c :: cs) := rfl

theorem numberOf_two_digits (c : Char) {d : Char} (hd : d ≠ 'x') : numberOf [c, d] = digitsValue 10 0 [c, d] := by
  unfold numberOf
  split <;> simp_all

theorem operand_eq {t : List Char} {n : Nat} (hn : numberOf t = some n) (bound : Nat) :
    operand bound t = if n < bound then some n else none := by
  simp [operand, hn]

theorem append_nib_toNat {w : Nat} (x : BitVec w) (v : Nib) : (x ++ v).toNat = 16 * x.toNat + v.toNat := by
  rw [BitVec.toNat_append, ← Nat.shiftLeft_add_eq_or_of_lt v.isLt, Nat.shiftLeft_eq]
  omega

theorem ofNat_three_nibbles (a b c : Nib) : BitVec.ofNat 12 (16 * (16 * a.toNat + b.toNat) + c.toNat) = a ++ b ++ c := by
  apply BitVec.eq_of_toNat_eq
  rw [append_nib_toNat, append_nib_toNat, BitVec.toNat_ofNat]
  omega

theorem numberOf_two_hex (a b : Nib) : numberOf ['0', 'x', hexDigit a, hexDigit b] = some (16 * a.toNat + b.toNat) := by
  rw [numberOf_hex, digitsValue_hexDigit, digitsValue_hexDigit, Nat.mul_zero, Nat.zero_add]
  rfl

theorem digitsValue_three_hex (a b c : Nib) :
    digitsValue 16 0 [hexDigit a, hexDigit b, hexDigit c] = some (16 * (16 * a.toNat + b.toNat) + c.toNat) := by
  rw [digitsValue_hexDigit, digitsValue_hexDigit, digitsValue_hexDigit, Nat.mul_zero, Nat.zero_add]
  rfl

theorem numberOf_two_decimal (t u : Fin 10) :
    numberOf [Char.ofNat (48 + t.val), Char.ofNat (48 + u.val)] = some (10 * t.val + u.val) := by
  rw [numberOf_two_digits _ (decimalDigit_ne_x u), digitsValue_decimalDigit, digitsValue_decimalDigit, Nat.mul_zero,
    Nat.zero_add]
  rfl

theorem eventOf_absorb (t : List Char) : eventOf [['A', 'B', 'S', 'O', 'R', 'B'], t] =
    (operand 256 t).map fun n => some (.word (0x200#12 + BitVec.ofNat 12 n)) := rfl

theorem eventOf_squeeze (t : List Char) : eventOf [['S', 'Q', 'U', 'E', 'E', 'Z', 'E'], t] =
    (operand 32 t).map fun n => some (.word (0x400#12 + BitVec.ofNat 12 n)) := rfl

theorem eventOf_rawWord (t : List Char) : eventOf [['.', 'w', 'o', 'r', 'd'], t] =
    (operand 4096 t).map fun n => some (.word (BitVec.ofNat 12 n)) := rfl

theorem eventOf_hash (t : List Char) : eventOf [['H', 'A', 'S', 'H'], t] = (hexBytes t).map fun m => some (.hash m) := rfl

/-- ABSORB with a hex operand. -/
theorem parseLine_absorb (a b : Nib) :
    parseLine ['A', 'B', 'S', 'O', 'R', 'B', ' ', '0', 'x', hexDigit a, hexDigit b] =
      some ⟨some (.word (0x2#4 ++ a ++ b)), none⟩ := by
  have hline := parseLine_lineOf (ts := [['A', 'B', 'S', 'O', 'R', 'B'], ['0', 'x', hexDigit a, hexDigit b]])
    (by simp +decide [lineWord, hexDigit_wordChar]) (by simp)
  have hlt : 16 * a.toNat + b.toNat < 256 := by omega
  have hword : 0x200#12 + BitVec.ofNat 12 (16 * a.toNat + b.toNat) = 0x2#4 ++ a ++ b := by
    rw [← ofNat_three_nibbles, ← BitVec.ofNat_add]
    exact congrArg _ (by rw [BitVec.toNat_ofNat]; omega)
  rw [eventOf_absorb, operand_eq (numberOf_two_hex a b), if_pos hlt, Option.map_some, Option.map_some, hword] at hline
  exact hline

/-- A raw word in hex. -/
theorem parseLine_rawWord (a b c : Nib) :
    parseLine ['.', 'w', 'o', 'r', 'd', ' ', '0', 'x', hexDigit a, hexDigit b, hexDigit c] =
      some ⟨some (.word (a ++ b ++ c)), none⟩ := by
  have hline := parseLine_lineOf (ts := [['.', 'w', 'o', 'r', 'd'], ['0', 'x', hexDigit a, hexDigit b, hexDigit c]])
    (by simp +decide [lineWord, hexDigit_wordChar]) (by simp)
  have hlt : 16 * (16 * a.toNat + b.toNat) + c.toNat < 4096 := by omega
  rw [eventOf_rawWord, operand_eq ((numberOf_hex _ _).trans (digitsValue_three_hex a b c)), if_pos hlt, Option.map_some,
    Option.map_some, ofNat_three_nibbles] at hline
  exact hline

/-- SQUEEZE with a decimal operand, which is an error of the script when there is no such byte of a digest. -/
theorem parseLine_squeeze (t u : Fin 10) :
    parseLine ['S', 'Q', 'U', 'E', 'E', 'Z', 'E', ' ', Char.ofNat (48 + t.val), Char.ofNat (48 + u.val)] =
      if 10 * t.val + u.val < 32 then some ⟨some (.word (BitVec.ofNat 12 (0x400 + 10 * t.val + u.val))), none⟩ else none := by
  have hline := parseLine_lineOf
    (ts := [['S', 'Q', 'U', 'E', 'E', 'Z', 'E'], [Char.ofNat (48 + t.val), Char.ofNat (48 + u.val)]])
    (by simp +decide [lineWord, decimalDigit_wordChar]) (by simp [decimalDigit_ne_dash])
  rw [eventOf_squeeze, operand_eq (numberOf_two_decimal t u)] at hline
  refine hline.trans ?_
  split
  · rw [Nat.add_assoc, BitVec.ofNat_add 0x400]
    rfl
  · rfl

/-- A response stated after START. -/
theorem parseLine_start_response (a b c : Nib) :
    parseLine ['S', 'T', 'A', 'R', 'T', ' ', '-', '>', ' ', hexDigit a, hexDigit b, hexDigit c] =
      some ⟨some (.word 0x100#12), some (a ++ b ++ c)⟩ := by
  have hresponse : expectOf (some [[hexDigit a, hexDigit b, hexDigit c]]) = some (some (a ++ b ++ c)) := by
    rw [expectOf, digitsValue_three_hex, Option.map_some, ofNat_three_nibbles]
  have hline := parseLine_lineOf_response (ts := [['S', 'T', 'A', 'R', 'T']]) (us := [[hexDigit a, hexDigit b, hexDigit c]])
    (by simp +decide [lineWord, hexDigit_wordChar]) (by simp) rfl hresponse
  exact hline

theorem hexBytes_hexDigits (m : List Byte) : hexBytes ((encodeMessage m).map hexDigit) = some m := by
  induction m with
  | nil => rfl
  | cons b m ih =>
    have hb : BitVec.ofNat 8 (16 * (hiNibble b).toNat + (loNibble b).toNat) = b := by
      apply BitVec.eq_of_toNat_eq
      rw [hiNibble_toNat, loNibble_toNat, BitVec.toNat_ofNat]
      omega
    simp [hexBytes, hexValue_hexDigit, ih, hb]

/-- HASH with the hex digits of a message; with none it is the hash of the empty message. -/
theorem parseLine_hash (m : List Byte) :
    parseLine (['H', 'A', 'S', 'H', ' '] ++ (encodeMessage m).map hexDigit) = some ⟨some (.hash m), none⟩ := by
  cases m with
  | nil => decide
  | cons b m =>
    have hword : lineWord ((encodeMessage (b :: m)).map hexDigit) = true := by
      simp [lineWord, hexDigit_wordChar]
    have hline := parseLine_lineOf (ts := [['H', 'A', 'S', 'H'], (encodeMessage (b :: m)).map hexDigit])
      (by rw [List.all_cons, List.all_cons, hword]; decide) (by simp [hexDigit_ne_dash, Ne.symm])
    rw [eventOf_hash, hexBytes_hexDigits, Option.map_some, Option.map_some] at hline
    exact hline

theorem parseLine_comment (cs : List Char) : parseLine ('#' :: cs) = some ⟨none, none⟩ := by
  have h : withoutComment ('#' :: cs) = [] := by simp [withoutComment]
  rw [parseLine, h]
  rfl

theorem assemble_append {xs ys : List (List Char)} {us vs : List HostEvent} (hx : assemble xs = some us)
    (hy : assemble ys = some vs) : assemble (xs ++ ys) = some (us ++ vs) := by
  induction xs generalizing us with
  | nil =>
    cases hx
    exact hy
  | cons x xs ih =>
    cases hl : parseLine x with
    | none => simp [assemble, hl] at hx
    | some line =>
      cases hr : assemble xs with
      | none => simp [assemble, hl, hr] at hx
      | some rest =>
        simp only [assemble, hl, hr, Option.some_inj] at hx
        simp [assemble, hl, ih hr, ← hx]

/-- Settles O59: each kind of line by its lemma; a line without an operand is evaluated. -/
theorem scriptLinesAreRead : Obligations.ScriptLinesAreRead := by
  unfold Obligations.ScriptLinesAreRead
  exact ⟨parseLine_absorb, parseLine_rawWord, parseLine_start_response, parseLine_squeeze, by decide, by decide, by decide,
    by decide, by decide, parseLine_hash, parseLine_comment, hexBytes_hexDigits, fun _ _ _ _ => assemble_append⟩

end Sys2Proof.Machine
end

section
/-! `add16` (R80, R81): addition of integers modulo 16, in each of the forms in which hardware may have it. -/

namespace Sys2Proof.Machine

theorem add16_toNat (a b : Nib) : (add16 a b).toNat = (a.toNat + b.toNat) % 16 := BitVec.toNat_add a b

theorem add16_comm (a b : Nib) : add16 a b = add16 b a := BitVec.add_comm a b

theorem add16_assoc (a b c : Nib) : add16 (add16 a b) c = add16 a (add16 b c) := BitVec.add_assoc a b c

@[simp] theorem add16_zero (a : Nib) : add16 a 0#4 = a := BitVec.add_zero a

/-- The right inverse that R80 writes as an integer is negation on 4 bits. -/
theorem ofNat_complement_eq_neg (b : Nib) : BitVec.ofNat 4 ((16 - b.toNat) % 16) = -b := by
  apply BitVec.eq_of_toNat_eq
  simp [BitVec.toNat_neg]

theorem add16_add16_neg (a b : Nib) : add16 (add16 a b) (-b) = a := by
  unfold add16
  rw [BitVec.add_assoc, BitVec.add_right_neg, BitVec.add_zero]

theorem add16_neg_add16 (a b : Nib) : add16 (add16 a (-b)) b = a := by
  simpa using add16_add16_neg a (-b)

theorem add16_eq_ofNat (a b : Nib) : add16 a b = BitVec.ofNat 4 ((a.toNat + b.toNat) % 16) := by
  rw [← add16_toNat, BitVec.ofNat_toNat, BitVec.setWidth_eq]

theorem exec_add16 (a b : Nib) (s : State) : exec (.add16 a b) s = .next { s with value := .nibble (add16 a b) } := rfl

/-- Settles O9: `add16` is addition on 4 bits, whose value as an integer is `add16_toNat`. -/
theorem add16AddsModulo16 : Obligations.Add16AddsModulo16 := by
  unfold Obligations.Add16AddsModulo16
  refine ⟨fun a b => ⟨add16_toNat a b, add16_comm a b, add16_zero a, ?_, ?_⟩, add16_assoc, rfl, rfl, rfl, rfl, rfl,
    fun a b s => ?_⟩
  · rw [ofNat_complement_eq_neg, add16_add16_neg]
  · rw [ofNat_complement_eq_neg, add16_neg_add16]
  · rw [exec_add16, add16_eq_ofNat]

/-- A sum of two nibbles is at most 30, so one subtraction brings it below 16. -/
theorem add16Subtract_eq_add16 (a b : Nib) : add16Subtract a b = add16 a b := by
  apply BitVec.eq_of_toNat_eq
  rw [add16_toNat, add16Subtract, BitVec.toNat_ofNat]
  split <;> omega

/-- Five bits hold the whole sum, and its low four are the remainder. -/
theorem add16LowBits_eq_add16 (a b : Nib) : add16LowBits a b = add16 a b := by
  have hsum : (a.setWidth 5 + b.setWidth 5).toNat = a.toNat + b.toNat := by
    rw [BitVec.toNat_add, BitVec.toNat_setWidth, BitVec.toNat_setWidth]
    omega
  apply BitVec.eq_of_toNat_eq
  rw [add16_toNat, add16LowBits, BitVec.extractLsb'_toNat, hsum, Nat.shiftRight_zero]

theorem add16_four_toNat (a b c d : Nib) :
    (add16 (add16 a b) (add16 c d)).toNat = (a.toNat + b.toNat + c.toNat + d.toNat) % 16 := by
  rw [add16_toNat, add16_toNat, add16_toNat, ← Nat.add_mod, Nat.add_assoc _ c.toNat]

/-- Settles O10: each form has the value of `add16` as an integer. -/
theorem add16FormsAgree : Obligations.Add16FormsAgree := by
  unfold Obligations.Add16FormsAgree
  exact ⟨fun a b => ⟨add16Subtract_eq_add16 a b, add16LowBits_eq_add16 a b⟩, add16_four_toNat⟩

end Sys2Proof.Machine
end

section
/-! SBOX and RC (R82 to R84, R89): the literals, and that they are what the rules say of them. -/

namespace Sys2Proof.Machine

theorem invSbox_sbox : ∀ v : Nib, invSbox (sbox v) = v := by decide

theorem sbox_invSbox : ∀ v : Nib, sbox (invSbox v) = v := by decide

theorem sbox_ne_self : ∀ v : Nib, sbox v ≠ v := by decide

theorem sbox_bijective : Function.Bijective sbox :=
  Function.bijective_iff_has_inverse.mpr ⟨invSbox, invSbox_sbox, sbox_invSbox⟩

/-- Settles O11: INV_SBOX is a two-sided inverse, so SBOX is a bijection. -/
theorem sboxIsTheTable : Obligations.SboxIsTheTable := by
  unfold Obligations.SboxIsTheTable
  exact ⟨rfl, fun _ => rfl, sbox_bijective.injective, sbox_bijective.surjective, sbox_ne_self, rfl, rfl,
    fun v => ⟨rfl, invSbox_sbox v⟩⟩

/-- One step of the generator of R84. -/
def lfsrNext (s : Nib) : Nib := (s >>> 1) ||| (((s.extractLsb' 0 1 ^^^ s.extractLsb' 3 1).setWidth 4) <<< 3)

theorem lfsr_succ (k : Nat) : lfsr (k + 1) = lfsrNext (lfsr k) := rfl

/-- Of the nonzero states only 1 is shifted to 0, and there the feedback sets bit 3. -/
theorem lfsrNext_ne_zero : ∀ s : Nib, s ≠ 0#4 → lfsrNext s ≠ 0#4 := by decide

theorem lfsr_ne_zero (k : Nat) : lfsr k ≠ 0#4 := by
  induction k with
  | zero => decide
  | succ k ih => exact lfsrNext_ne_zero _ ih

theorem lfsr_add_15 (k : Nat) : lfsr (k + 15) = lfsr k := by
  induction k with
  | zero => decide
  | succ k ih => rw [Nat.add_right_comm, lfsr_succ (k + 15), ih, lfsr_succ]

theorem rc_eq_lfsr : ∀ r : BitVec 4, rc r = lfsr r.toNat := by decide

theorem rc_ne_zero (r : BitVec 4) : rc r ≠ 0#4 := by
  rw [rc_eq_lfsr]
  exact lfsr_ne_zero r.toNat

/-- The generator's period is 15, one less than the rounds. -/
theorem rc_last_eq_first : rc 15#4 = rc 0#4 := by
  rw [rc_eq_lfsr, rc_eq_lfsr]
  exact lfsr_add_15 0

/-- Settles O12: the table is the generator's first sixteen states, and the generator never reaches 0. -/
theorem roundConstantsAreTheTable : Obligations.RoundConstantsAreTheTable := by
  unfold Obligations.RoundConstantsAreTheTable
  exact ⟨rfl, fun r => ⟨rfl, rc_ne_zero r, rc_eq_lfsr r⟩, rc_last_eq_first, rfl,
    fun k => ⟨lfsr_ne_zero k, lfsr_add_15 k⟩⟩

end Sys2Proof.Machine
end

section
/-! PERM (R85 to R87): its formula, its inverse, and its cycles. -/

namespace Sys2Proof.Machine

/-- R85: the row is rotated left by its number, and the view is transposed. -/
theorem perm_val : ∀ i : Fin 64, (perm i).val = 8 * ((i.val % 8 + 8 - i.val / 8) % 8) + i.val / 8 := by decide

theorem perm_rowColumn (r c : Fin 8) :
    (perm ⟨8 * r.val + c.val, by omega⟩).val = 8 * ((c.val + 8 - r.val) % 8) + r.val := by
  rw [perm_val]
  dsimp only
  omega

theorem invPerm_rowColumn (a b : Fin 8) :
    (invPerm ⟨8 * a.val + b.val, by omega⟩).val = 8 * b.val + (a.val + b.val) % 8 := by
  rw [invPerm_val]
  dsimp only
  omega

/-- R85 read the other way round: which old nibble lands at row `a`, column `b`. -/
theorem perm_source (a b : Fin 8) : (perm ⟨8 * b.val + (a.val + b.val) % 8, by omega⟩).val = 8 * a.val + b.val := by
  have h : invPerm ⟨8 * a.val + b.val, by omega⟩ = ⟨8 * b.val + (a.val + b.val) % 8, by omega⟩ :=
    Fin.ext (invPerm_rowColumn a b)
  rw [← h, perm_invPerm]

/-- Settles O13: the formula on rows and columns, and its converse by the inverse's formula. -/
theorem permRotatesAndTransposes : Obligations.PermRotatesAndTransposes := by
  unfold Obligations.PermRotatesAndTransposes
  exact ⟨perm_rowColumn, perm_source, rfl, fun _ => rfl⟩

theorem perm_bijective : Function.Bijective perm :=
  Function.bijective_iff_has_inverse.mpr ⟨invPerm, invPerm_perm, perm_invPerm⟩

theorem perm_eq_self_iff : ∀ i : Fin 64, perm i = i ↔ i = 0 := by decide

theorem perm_iterate_12 : ∀ i : Fin 64, perm^[12] i = i := by decide

/-- How many indices have the period `d` under PERM, and no shorter one. -/
def countPeriod (d : Nat) : Nat :=
  (List.finRange 64).countP fun i =>
    decide (perm^[d] i = i) && (List.range d).all fun k => k == 0 || !decide (perm^[k] i = i)

theorem countPeriod_values : [1, 3, 6, 12].map countPeriod = [1, 3, 12, 48] := by decide

/-- Settles O14: INV_PERM is a two-sided inverse, and the periods are counted over the 64 indices. -/
theorem permIsABijection : Obligations.PermIsABijection := by
  unfold Obligations.PermIsABijection
  exact ⟨perm_bijective.existsUnique, fun i => ⟨invPerm_perm i, rfl⟩, invPerm_rowColumn, perm_eq_self_iff, rfl, rfl, rfl,
    perm_iterate_12, countPeriod_values⟩

end Sys2Proof.Machine
end

section
/-! A layer as the sequencer takes it: the layer on `S`, then the sequencer's next state (R160, R161). -/

namespace Sys2Proof.Machine

theorem microStep_of_stage (layer : NibState → NibState) {s : State} {v : BitVec 2} (hb : s.busy = true)
    (hs : s.stage = v) (hv : v ≠ 3#2) : s.microStep layer = { s with S := layer s.S, stage := v + 1#2 } := by
  subst hs
  exact advance_stage { s with S := layer s.S } hb hv

theorem microStep_of_round (layer : NibState → NibState) {s : State} (hb : s.busy = true) (hs : s.stage = 3#2)
    (hr : s.rnd ≠ 15#4) : s.microStep layer = { s with S := layer s.S, rnd := s.rnd + 1#4, stage := 0#2 } :=
  advance_round { s with S := layer s.S } hb hs hr

theorem microStep_of_last (layer : NibState → NibState) {s : State} (hb : s.busy = true) (hs : s.stage = 3#2)
    (hr : s.rnd = 15#4) :
    s.microStep layer =
      { s with
        S := layer s.S, busy := false, rnd := 0#4, stage := 0#2, pos := 0#5, phase := if s.fin then .done else s.phase,
        fin := false, rsps := s.rsps ++ [0x000#12] } :=
  advance_last { s with S := layer s.S } hb hs hr

end Sys2Proof.Machine
end

section
/-! The layers on a state of equal nibbles (the corner cases of R100 to R105). -/

namespace Sys2Proof.Machine

theorem eq_replicate_of_forall_get {S : NibState} {v : Nib} (h : ∀ i : Fin 64, S[i.val] = v) :
    S = Vector.replicate 64 v := by
  apply Vector.ext
  intro i hi
  rw [Vector.getElem_replicate]
  exact h ⟨i, hi⟩

theorem subNibbles_replicate (v : Nib) : subNibbles (Vector.replicate 64 v) = Vector.replicate 64 (sbox v) :=
  eq_replicate_of_forall_get fun i => by rw [subNibbles_get, Vector.getElem_replicate]

theorem permuteNibbles_replicate (v : Nib) : permuteNibbles (Vector.replicate 64 v) = Vector.replicate 64 v :=
  eq_replicate_of_forall_get fun j => by rw [permuteNibbles_get, Vector.getElem_replicate]

theorem below_replicate (v : Nib) (i : Fin 64) (k : Nat) : below (Vector.replicate 64 v) i k = v :=
  Vector.getElem_replicate _

theorem mixColumns_replicate (v : Nib) :
    mixColumns (Vector.replicate 64 v) = Vector.replicate 64 (v + v + (v + v)) :=
  eq_replicate_of_forall_get fun i => by simp only [mixColumns_get, below_replicate]

end Sys2Proof.Machine
end

section
/-! Each layer nibble by nibble, and what its step leaves of the rest (R100 to R104). -/

namespace Sys2Proof.Machine

/-- Settles O15: a nibble of the new state is SBOX of the old one, and SBOX has no fixed point. -/
theorem subNibblesSubstitutesEveryNibble : Obligations.SubNibblesSubstitutesEveryNibble := by
  unfold Obligations.SubNibblesSubstitutesEveryNibble
  intro s hb hs
  refine ⟨subNibbles s.S, congrArg Host.Outcome.next (microStep_of_stage subNibbles hb hs (by decide)),
    fun i => ⟨subNibbles_get s.S i.val i.isLt, ?_⟩, fun hzero i => ?_⟩
  · rw [subNibbles_get]
    exact sbox_ne_self _
  · rw [subNibbles_get, hzero]
    rfl

/-- R101 by rows and columns: row `a` of the new state is the old one's diagonal from the top of column `a`. -/
theorem permuteNibbles_rowColumn (S : NibState) (a b : Fin 8) :
    (permuteNibbles S)[8 * a.val + b.val] = S[8 * b.val + (a.val + b.val) % 8] := by
  have h := permuteNibbles_get S ⟨8 * a.val + b.val, by omega⟩
  simpa only [invPerm_rowColumn] using h

/-- Settles O16: `permuteNibbles` by destination (PERM), by source (INV_PERM), and by row and column. -/
theorem permuteNibblesMovesToPerm : Obligations.PermuteNibblesMovesToPerm := by
  unfold Obligations.PermuteNibblesMovesToPerm
  intro s hb hs
  refine ⟨permuteNibbles s.S, congrArg Host.Outcome.next (microStep_of_stage permuteNibbles hb hs (by decide)),
    permuteNibbles_dest s.S, permuteNibbles_rowColumn s.S, permuteNibbles_get s.S,
    permuteNibbles_get s.S 0, fun v hv => ?_⟩
  rw [eq_replicate_of_forall_get hv, permuteNibbles_replicate]

theorem below_rowColumn (S : NibState) (r c : Fin 8) (k : Nat) :
    below S ⟨8 * r.val + c.val, by omega⟩ k = S[8 * ((r.val + k) % 8) + c.val] := by
  have hrow : (8 * r.val + c.val) / 8 = r.val := by omega
  have hcol : (8 * r.val + c.val) % 8 = c.val := by omega
  simp only [below, hrow, hcol]

theorem mixColumns_rowColumn_toNat (S : NibState) (r c : Fin 8) :
    ((mixColumns S)[8 * r.val + c.val]).toNat =
      ((S[8 * r.val + c.val]).toNat + (S[8 * ((r.val + 1) % 8) + c.val]).toNat +
        (S[8 * ((r.val + 2) % 8) + c.val]).toNat + (S[8 * ((r.val + 3) % 8) + c.val]).toNat) % 16 := by
  have hsum := congrArg BitVec.toNat (mixColumns_get S ⟨8 * r.val + c.val, by omega⟩)
  have hown : (r.val + 0) % 8 = r.val := by omega
  simp only [below_rowColumn, hown] at hsum
  exact hsum.trans (add16_four_toNat ..)

/-- Settles O17: a nibble of the new state is a sum of four old ones (`add16_four_toNat`); 4 times 0 is 0, and 4 times 15
is 12 modulo 16. -/
theorem mixColumnsSumsFourRowsOfTheSnapshot : Obligations.MixColumnsSumsFourRowsOfTheSnapshot := by
  unfold Obligations.MixColumnsSumsFourRowsOfTheSnapshot
  intro s hb hs
  refine ⟨mixColumns s.S, congrArg Host.Outcome.next (microStep_of_stage mixColumns hb hs (by decide)),
    mixColumns_rowColumn_toNat s.S, fun hzero i => ?_, fun hones i => ?_⟩
  · rw [eq_replicate_of_forall_get hzero, mixColumns_replicate, Vector.getElem_replicate]
    rfl
  · rw [eq_replicate_of_forall_get hones, mixColumns_replicate, Vector.getElem_replicate]
    rfl

theorem addConstant_get_last (r : BitVec 4) (S : NibState) : (addConstant r S)[63] = S[63] + rc r := by
  rw [addConstant_get, if_pos rfl]

theorem addConstant_get_other (r : BitVec 4) (S : NibState) {i : Fin 64} (hi : i ≠ 63) :
    (addConstant r S)[i.val] = S[i.val] := by
  rw [addConstant_get, if_neg fun h => hi (Fin.ext h.symm)]

theorem addConstant_changes_last (r : BitVec 4) (S : NibState) : (addConstant r S)[63] ≠ S[63] := by
  rw [addConstant_get_last, ne_eq, add_eq_left]
  exact rc_ne_zero r

/-- Settles O18: `addConstant` changes nibble 63 only, by a constant that is never 0; R161 gives the rest of the next
state. -/
theorem addConstantTouchesOnlyNibble63 : Obligations.AddConstantTouchesOnlyNibble63 := by
  unfold Obligations.AddConstantTouchesOnlyNibble63
  intro s hb hs
  refine ⟨addConstant s.rnd s.S, fun i hi => addConstant_get_other s.rnd s.S hi, ?_, addConstant_changes_last s.rnd s.S,
    fun hr => congrArg Host.Outcome.next (microStep_of_round (addConstant s.rnd) hb hs hr),
    fun hr => congrArg Host.Outcome.next (microStep_of_last (addConstant s.rnd) hb hs hr)⟩
  rw [addConstant_get_last]
  exact add16_toNat _ _

end Sys2Proof.Machine
end

section
/-! The round, the Permutation (R105, R106), and the layers' inverses (R108, R109). -/

namespace Sys2Proof.Machine

theorem exec_round (r : BitVec 4) (s : State) : exec (.round r) s = .next { s with S := oneRound r s.S } := rfl

theorem exec_permutation (s : State) : exec .permutation s = .next { s with S := permutation s.S } := rfl

/-- SBOX makes every nibble 12, PERM keeps them so, and 4 times 12 is 0 modulo 16: only the constant is left. -/
theorem oneRound_replicate_zero (r : BitVec 4) :
    oneRound r (Vector.replicate 64 0#4) = addConstant r zeroState := by
  have hsub : subNibbles (Vector.replicate 64 0#4) = Vector.replicate 64 0xC#4 := subNibbles_replicate 0#4
  have hmix : mixColumns (Vector.replicate 64 0xC#4) = zeroState := mixColumns_replicate 0xC#4
  rw [oneRound, hsub, permuteNibbles_replicate, hmix]

/-- Settles O20: the definition of the round, and the all-zero state taken through its layers. -/
theorem roundAppliesTheFourLayers : Obligations.RoundAppliesTheFourLayers := by
  unfold Obligations.RoundAppliesTheFourLayers
  intro r s
  refine ⟨oneRound r s.S, exec_round r s, rfl, fun hzero => ?_⟩
  rw [eq_replicate_of_forall_get hzero, oneRound_replicate_zero]
  constructor
  · intro i hi
    rw [addConstant_get_other r zeroState hi, zeroState_get]
  · rw [addConstant_get_last, zeroState_get, BitVec.zero_add]
    rfl

/-- Settles O21: the sixteen rounds of `permutationN 16`, written out. -/
theorem permutationIsSixteenRounds : Obligations.PermutationIsSixteenRounds := by
  unfold Obligations.PermutationIsSixteenRounds
  intro s
  rw [exec_permutation, permutation_eq]
  simp only [permutationN_succ, permutationN_zero]

/-- Settles O22: INV_SBOX undoes SBOX at every nibble; the nibble that PERM takes from `i` to `PERM[i]` comes back to
`INV_PERM[PERM[i]] = i`. -/
theorem substitutionAndPermutationInvert : Obligations.SubstitutionAndPermutationInvert := by
  unfold Obligations.SubstitutionAndPermutationInvert
  intro S
  refine ⟨fun i => by rw [subNibbles_get, invSbox_sbox], fun T U hT hU => ?_⟩
  apply Vector.ext
  intro i hi
  have hback := hU (perm ⟨i, hi⟩)
  simp only [invPerm_perm, hT, permuteNibbles_dest] at hback
  exact hback

end Sys2Proof.Machine
end

section
/-! The encoder and the decoder (R120, R121, R125, R128): a byte is its two nibbles, the high one first. -/

namespace Sys2Proof.Machine

theorem exec_encodeByte (b : Byte) (s : State) :
    exec (.encodeByte b) s = .next { s with value := .nibbles (encodeByte b) } := rfl

theorem exec_encodeMessage (m : List Byte) (s : State) :
    exec (.encodeMessage m) s = .next { s with value := .nibbles (encodeMessage m) } := rfl

theorem exec_decodeByte (i : BitVec 5) (s : State) :
    exec (.decodeByte i) s = .next { s with value := .byte (decodeByte s.S i) } := rfl

theorem hiNibble_eq_ofNat (b : Byte) : hiNibble b = BitVec.ofNat 4 (b.toNat / 16) := by
  rw [← hiNibble_toNat, BitVec.ofNat_toNat, BitVec.setWidth_eq]

theorem loNibble_eq_ofNat (b : Byte) : loNibble b = BitVec.ofNat 4 (b.toNat % 16) := by
  rw [← loNibble_toNat, BitVec.ofNat_toNat, BitVec.setWidth_eq]

theorem encodeMessage_getElem? {m : List Byte} {k : Nat} {b : Byte} (h : m[k]? = some b) :
    (encodeMessage m)[2 * k]? = some (hiNibble b) ∧ (encodeMessage m)[2 * k + 1]? = some (loNibble b) := by
  induction m generalizing k with
  | nil => simp at h
  | cons c m ih =>
    cases k with
    | zero =>
      obtain rfl : c = b := by simpa using h
      simp
    | succ k => simpa [Nat.mul_add] using ih (k := k) (by simpa using h)

/-- Settles O24: the two halves of a byte as numbers, and for a message an induction on its bytes. -/
theorem encoderGivesHighNibbleFirst : Obligations.EncoderGivesHighNibbleFirst := by
  unfold Obligations.EncoderGivesHighNibbleFirst
  refine ⟨fun b s => ?_, fun m s => ⟨encodeMessage m, exec_encodeMessage m s, encodeMessage_length m, fun k b hb => ?_⟩⟩
  · rw [exec_encodeByte, encodeByte, hiNibble_eq_ofNat, loNibble_eq_ofNat]
  · rw [← hiNibble_eq_ofNat, ← loNibble_eq_ofNat]
    exact encodeMessage_getElem? hb

theorem hiNibble_append_loNibble (b : Byte) : hiNibble b ++ loNibble b = b :=
  (BitVec.extractLsb'_append_extractLsb'_eq_extractLsb' rfl).trans BitVec.extractLsb'_eq_self

theorem encodeByte_append (x y : Nib) : encodeByte (x ++ y) = [x, y] :=
  congrArg₂ (fun h l => [h, l]) BitVec.extractLsb'_append_eq_left BitVec.extractLsb'_append_eq_right

theorem encodeByte_eq_iff (b : Byte) (x y : Nib) : encodeByte b = [x, y] ↔ x ++ y = b := by
  constructor
  · intro h
    obtain ⟨rfl, rfl⟩ : hiNibble b = x ∧ loNibble b = y := by simpa [encodeByte] using h
    exact hiNibble_append_loNibble b
  · rintro rfl
    exact encodeByte_append x y

/-- The shift and the OR of R125 put two nibbles side by side. -/
theorem decodeByte_eq_append (S : NibState) (i : BitVec 5) : decodeByte S i = S[2 * i.toNat] ++ S[2 * i.toNat + 1] := by
  rw [decodeByte, BitVec.append_def, BitVec.shiftLeftZeroExtend_eq, BitVec.setWidth'_eq]

theorem decodeByte_eq_ofNat (S : NibState) (i : BitVec 5) :
    decodeByte S i = BitVec.ofNat 8 (16 * (S[2 * i.toNat]).toNat + (S[2 * i.toNat + 1]).toNat) := by
  rw [decodeByte_eq_append, ← append_nib_toNat, BitVec.ofNat_toNat, BitVec.setWidth_eq]

theorem decodeDigest_getElem? (S : NibState) (i : BitVec 5) : (decodeDigest S)[i.toNat]? = some (decodeByte S i) := by
  have hi : i.toNat < Config.digestBytes := i.isLt
  simp [decodeDigest, List.getElem?_range hi]

/-- Settles O28: two nibbles side by side as a number, and the digest byte by byte. -/
theorem decodeByteJoinsTwoNibbles : Obligations.DecodeByteJoinsTwoNibbles := by
  unfold Obligations.DecodeByteJoinsTwoNibbles
  refine ⟨fun i s => ?_, fun S => ⟨decodeDigest_length S, decodeDigest_getElem? S⟩⟩
  rw [exec_decodeByte, decodeByte_eq_ofNat]

/-- Settles O29: a byte has the encoding `x, y` exactly when it is `x` and `y` side by side, which is the decoder. -/
theorem encoderAndDecoderAreInverse : Obligations.EncoderAndDecoderAreInverse := by
  unfold Obligations.EncoderAndDecoderAreInverse
  intro S i
  rw [decodeByte_eq_append]
  exact ⟨fun b hb => (encodeByte_eq_iff b _ _).mp hb, encodeByte_append _ _⟩

end Sys2Proof.Machine
end

section
/-! Padding (R122 to R124): its length, and the message read back from it. -/

namespace Sys2Proof.Machine

theorem exec_pad (m : List Byte) (s : State) : exec (.pad m) s = .next { s with value := .nibbles (pad m) } := rfl

/-- The integer remainder of R122 as a natural number. -/
theorem padZeros_eq (len : Nat) : padZeros len = 30 - 2 * len % 32 := by
  unfold padZeros
  omega

theorem padZeros_cast (len : Nat) : (padZeros len : Int) = (30 - 2 * (len : Int)) % 32 :=
  Int.toNat_of_nonneg (Int.emod_nonneg _ (by decide))

theorem pad_length (m : List Byte) : (pad m).length = 32 * (m.length / 16 + 1) := by
  simp only [pad, List.length_append, List.length_cons, List.length_nil, List.length_replicate, encodeMessage_length,
    padZeros_eq]
  omega

/-- Settles O25: every clause on `z` and on the length is arithmetic once both have their closed forms. -/
theorem padFillsTheLastBlock : Obligations.PadFillsTheLastBlock := by
  unfold Obligations.PadFillsTheLastBlock
  intro m s
  have hz := padZeros_eq m.length
  have hlen := pad_length m
  refine ⟨padZeros m.length, exec_pad m s, padZeros_cast m.length, ?_, ?_, ?_, hlen, ?_, ?_⟩ <;> omega

/-- The reader of a padding: the last `1`, the zeros before it and the `8` before them taken off. -/
def unpad (q : List Nib) : List Nib := (q.dropLast.rdropWhile (· == 0#4)).dropLast

theorem rdropWhile_append_replicate (q : List Nib) (v : Nib) (z : Nat) :
    (q ++ List.replicate z v).rdropWhile (· == v) = q.rdropWhile (· == v) := by
  induction z with
  | zero => simp
  | succ z ih =>
    rw [List.replicate_succ', ← List.append_assoc, List.rdropWhile_concat_pos (· == v) _ _ (beq_self_eq_true v), ih]

theorem unpad_pad (m : List Byte) : unpad (pad m) = encodeMessage m := by
  rw [unpad, pad, List.dropLast_concat, rdropWhile_append_replicate, List.rdropWhile_concat_neg _ _ _ (by decide),
    List.dropLast_concat]

theorem encodeByte_injective : Function.Injective encodeByte := fun b c h => by
  rw [← hiNibble_append_loNibble c]
  exact ((encodeByte_eq_iff b _ _).mp h).symm

theorem encodeMessage_injective : Function.Injective encodeMessage := by
  intro m
  induction m with
  | nil =>
    rintro (_ | ⟨c, n⟩) h
    · rfl
    · simp at h
  | cons b m ih =>
    rintro (_ | ⟨c, n⟩) h
    · simp at h
    · obtain ⟨hbyte, hrest⟩ := List.append_inj h rfl
      rw [encodeByte_injective hbyte, ih hrest]

/-- Settles O26: `unpad` reads the encoded message back, and the length is that of `L div 16 + 1` blocks. -/
theorem padIsInjective : Obligations.PadIsInjective := by
  unfold Obligations.PadIsInjective
  refine ⟨fun m m' h => encodeMessage_injective ?_, fun m hm => ?_⟩
  · rw [← unpad_pad m, h, unpad_pad]
  · rw [pad_length]
    omega

end Sys2Proof.Machine
end

section
/-! The padding engine (R127): its two additions, and the rest of the last padded block. -/

namespace Sys2Proof.Machine

theorem exec_padInPlace (pos : BitVec 5) (s : State) :
    exec (.padInPlace pos) s = .next { s with S := padInPlace s.S pos } := rfl

/-- The rest of a padded block from position `pos` on, with zeros before it (R127). -/
def paddingFrom (pos : Nat) : List Nib :=
  List.replicate pos 0#4 ++ [8#4] ++ List.replicate (30 - pos) 0#4 ++ [1#4]

theorem paddingFrom_getD {pos j : Nat} (hpos : pos ≤ 30) (hj : j < 32) :
    (paddingFrom pos).getD j 0#4 = (if pos = j then 8#4 else 0#4) + (if 31 = j then 1#4 else 0#4) := by
  have hlast : pos + 1 + (30 - pos) = 31 := by omega
  simp only [paddingFrom, List.getD_eq_getElem?_getD, List.getElem?_append, List.length_append, List.length_replicate,
    List.length_singleton, hlast]
  obtain hbefore | rfl | ⟨hafter, hj31⟩ | rfl : j < pos ∨ pos = j ∨ (pos < j ∧ j < 31) ∨ j = 31 := by omega
  · have hj31 : j < 31 := by omega
    simp [hbefore, hbefore.le, hbefore.ne', hj31, hj31.ne']
  · have hj31 : pos < 31 := by omega
    simp [hj31, hj31.ne']
  · have hzero : j - (pos + 1) < 30 - pos := by omega
    simp [hj31, hj31.ne', hafter.ne, hafter.not_ge, hzero]
  · have hne : pos ≠ 31 := by omega
    simp [hne]

theorem padInPlace_eq_absorbBlock (S : NibState) {pos : BitVec 5} (hpos : pos.toNat ≤ 30) :
    padInPlace S pos = absorbBlock S (blockAt (paddingFrom pos.toNat) 0) := by
  apply Vector.ext
  intro j hj
  rw [padInPlace_get _ _ _ hj, absorbBlock_get _ _ _ hj]
  by_cases hrate : j < 32
  · rw [dif_pos hrate, blockAt_get _ _ _ hrate, Nat.mul_zero, Nat.zero_add, paddingFrom_getD hpos hrate, BitVec.add_assoc]
  · rw [dif_neg hrate, if_neg (by omega), if_neg (by omega), BitVec.add_zero, BitVec.add_zero]

/-- The last block of a padded message: the nibbles that fill no block, then the padding. -/
theorem pad_drop_full_blocks (m : List Byte) :
    (pad m).drop (32 * (m.length / 16)) = (encodeMessage m).drop (32 * (m.length / 16)) ++ [8#4] ++
      List.replicate (30 - 2 * m.length % 32) 0#4 ++ [1#4] := by
  have hfull : 32 * (m.length / 16) ≤ (encodeMessage m).length := by
    rw [encodeMessage_length]
    omega
  simp only [pad, List.append_assoc, List.drop_append_of_le_length hfull, padZeros_eq]

/-- Settles O27: the engine nibble by nibble, and the stream from the last block on. -/
theorem padInPlaceAddsTheRestOfTheBlock : Obligations.PadInPlaceAddsTheRestOfTheBlock := by
  unfold Obligations.PadInPlaceAddsTheRestOfTheBlock
  constructor
  · intro pos s heven
    have hpos : pos.toNat ≤ 30 := by omega
    refine ⟨padInPlace s.S pos, exec_padInPlace pos s, ?_, ?_, fun j hjpos hj31 => ?_,
      padInPlace_eq_absorbBlock s.S hpos⟩
    · rw [padInPlace_get, if_pos rfl, if_neg (by omega), BitVec.add_zero, add16]
    · rw [padInPlace_get, if_neg (by omega), if_pos rfl, BitVec.add_zero, add16]
    · rw [padInPlace_get, if_neg hjpos.symm, if_neg hj31.symm, BitVec.add_zero, BitVec.add_zero]
  · intro m
    refine ⟨(encodeMessage m).drop (32 * (m.length / 16)), rfl, ?_, pad_drop_full_blocks m⟩
    rw [List.length_drop, encodeMessage_length]
    omega

end Sys2Proof.Machine
end

section
/-! The sponge function (R140 to R142): a block added into the rate, and the hash as a chain of absorbed blocks. -/

namespace Sys2Proof.Machine

theorem exec_absorbBlock (p : Block) (s : State) :
    exec (.absorbBlock p) s = .next { s with S := absorbBlock s.S p } := rfl

theorem absorbBlock_get_rate (S : NibState) (p : Block) (i : Fin 32) : (absorbBlock S p)[i.val] = add16 S[i.val] p[i.val] := by
  rw [absorbBlock_get, dif_pos i.isLt, add16]

theorem absorbBlock_get_capacity (S : NibState) (p : Block) {i : Fin 64} (hi : 32 ≤ i.val) :
    (absorbBlock S p)[i.val] = S[i.val] := by
  rw [absorbBlock_get, dif_neg hi.not_gt]

/-- Settles O30: the new nibble is `add16` in the rate and the old one in the capacity. -/
theorem absorbBlockAddsIntoTheRate : Obligations.AbsorbBlockAddsIntoTheRate := by
  unfold Obligations.AbsorbBlockAddsIntoTheRate
  intro p s
  refine ⟨absorbBlock s.S p, exec_absorbBlock p s, fun i => ?_, fun i hi => absorbBlock_get_capacity s.S p hi,
    fun i hzero => ?_⟩
  · rw [absorbBlock_get_rate, add16_toNat]
  · rw [absorbBlock_get_rate, hzero, add16, BitVec.add_zero]

theorem exec_hash (m : List Byte) (s : State) : exec (.hash m) s = .next { s with value := .bytes (hashMessage m) } := rfl

/-- `Pad(M)` fills all its blocks, so `blockAt` reads no default there. -/
theorem pad_getElem?_blockAt (m : List Byte) {k : Nat} (hk : k < m.length / 16 + 1) (i : Fin 32) :
    (pad m)[32 * k + i.val]? = some (blockAt (pad m) k)[i.val] := by
  have hlt : 32 * k + i.val < (pad m).length := by
    rw [pad_length]
    omega
  rw [blockAt_get, List.getElem?_eq_getElem hlt, List.getD_eq_getElem _ _ hlt]

theorem hashState_eq_absorbBlocks (m : List Byte) : hashState m = absorbBlocks (pad m) (m.length / 16 + 1) := by
  rw [hashState, Config.rate, pad_length, Nat.mul_div_cancel_left _ (by decide)]

theorem hashMessage_getElem? (m : List Byte) (i : Fin 32) : (hashMessage m)[i.val]? = some (BitVec.ofNat 8
    (16 * ((hashState m)[2 * i.val]).toNat + ((hashState m)[2 * i.val + 1]).toNat)) := by
  have h := decodeDigest_getElem? (hashState m) (BitVec.ofFin i)
  rwa [decodeByte_eq_ofNat] at h

/-- Settles O31: the states between the blocks are `absorbBlocks` of the padded stream, and the last one is decoded. -/
theorem hashAbsorbsPermutesDecodes : Obligations.HashAbsorbsPermutesDecodes := by
  unfold Obligations.HashAbsorbsPermutesDecodes
  intro m s
  refine ⟨absorbBlocks (pad m), hashMessage m, exec_hash m s, fun i => zeroState_get i.val i.isLt, fun k hk => ?_,
    decodeDigest_length _, fun i => ?_⟩
  · exact ⟨blockAt (pad m) k, pad_getElem?_blockAt m hk, absorbBlocks_succ (pad m) k⟩
  · rw [hashMessage_getElem?, hashState_eq_absorbBlocks]

end Sys2Proof.Machine
end

section
/-! No operation reads the responses given so far (log entry 3) or the value of a function row (log entry 4), so after a
START, which writes the registers, nothing of the time before it has an effect (R146). -/

namespace Sys2Proof.Machine

/-- `s` with the responses `rs` before its own and the value `v`: all of the past that a START leaves. -/
def State.withHistory (s : State) (rs : List Response) (v : FnValue) : State :=
  { s with rsps := rs ++ s.rsps, value := v }

@[simp] theorem withHistory_busy (s : State) (rs : List Response) (v : FnValue) : (s.withHistory rs v).busy = s.busy := rfl
@[simp] theorem withHistory_host (s : State) (rs : List Response) (v : FnValue) : (s.withHistory rs v).host = s.host := rfl

/-- The state that `f` makes is the same with any history. -/
def KeepsHistory (f : State → State) : Prop :=
  ∀ s rs v, f (s.withHistory rs v) = (f s).withHistory rs v

theorem respond_keepsHistory (st : BitVec 4) (d : Byte) : KeepsHistory fun s => s.respond st d := fun s rs v => by
  simp [State.respond, State.withHistory]

theorem raiseFault_keepsHistory (c : FaultCode) : KeepsHistory fun s => s.raiseFault c :=
  fun s => respond_keepsHistory c.code 0x00#8 { s with fcode := c, phase := .fault }

theorem closeBlock_keepsHistory (final : Bool) : KeepsHistory fun s => s.closeBlock final := fun s rs v => by
  cases hl : s.level with
  | command =>
    dsimp only
    rw [closeBlock_command s final hl, closeBlock_command (s.withHistory rs v) final hl]
    exact respond_keepsHistory _ _ { s with S := _, pos := _, phase := _ } rs v
  | micro =>
    dsimp only
    rw [closeBlock_micro s final hl, closeBlock_micro (s.withHistory rs v) final hl]
    rfl

theorem advance_keepsHistory : KeepsHistory State.advance := fun s rs v => by
  cases hb : s.busy with
  | false => rw [advance_idle s hb, advance_idle (s.withHistory rs v) hb]
  | true =>
    by_cases hv : s.stage = 3#2
    · by_cases hr : s.rnd = 15#4
      · rw [advance_last s hb hv hr, advance_last (s.withHistory rs v) hb hv hr]
        exact respond_keepsHistory _ _ { s with busy := _, rnd := _, stage := _, pos := _, phase := _, fin := _ } rs v
      · rw [advance_round s hb hv hr, advance_round (s.withHistory rs v) hb hv hr]
        rfl
    · rw [advance_stage s hb hv, advance_stage (s.withHistory rs v) hb hv]
      rfl

theorem startCommand_keepsHistory : KeepsHistory startCommand :=
  fun s => respond_keepsHistory 0x0#4 0x00#8 { s with S := zeroState, pos := 0#5, phase := .absorb }

theorem absorbCommand_keepsHistory (d : Byte) : KeepsHistory (absorbCommand d) := fun s rs v => by
  by_cases hp : s.phase = .absorb
  · by_cases hpos : s.pos = 30#5
    · rw [absorbCommand_close d s hp hpos, absorbCommand_close d (s.withHistory rs v) hp hpos]
      exact closeBlock_keepsHistory false { s with S := _ } rs v
    · rw [absorbCommand_open d s hp hpos, absorbCommand_open d (s.withHistory rs v) hp hpos]
      exact respond_keepsHistory _ _ { s with S := _, pos := _ } rs v
  · rw [absorbCommand_fault d s hp, absorbCommand_fault d (s.withHistory rs v) hp]
    exact raiseFault_keepsHistory _ s rs v

theorem finalCommand_keepsHistory : KeepsHistory finalCommand := fun s rs v => by
  by_cases hp : s.phase = .absorb
  · rw [finalCommand_absorb s hp, finalCommand_absorb (s.withHistory rs v) hp]
    exact closeBlock_keepsHistory true { s with S := _ } rs v
  · rw [finalCommand_fault s hp, finalCommand_fault (s.withHistory rs v) hp]
    exact raiseFault_keepsHistory _ s rs v

theorem squeezeCommand_keepsHistory (i : BitVec 5) : KeepsHistory (squeezeCommand i) := fun s rs v => by
  by_cases hp : s.phase = .done
  · rw [squeezeCommand_done i s hp, squeezeCommand_done i (s.withHistory rs v) hp]
    exact respond_keepsHistory _ _ s rs v
  · rw [squeezeCommand_fault i s hp, squeezeCommand_fault i (s.withHistory rs v) hp]
    exact raiseFault_keepsHistory _ s rs v

/-- `f` answers a next state, which is the same with any history. The value is another one where `f` writes it. -/
def IgnoresHistory (f : State → Result) (s : State) : Prop :=
  ∃ t, f s = .next t ∧ ∀ rs v, ∃ v', f (s.withHistory rs v) = .next (t.withHistory rs v')

theorem KeepsHistory.next {f : State → State} (hf : KeepsHistory f) (s : State) : IgnoresHistory (fun u => .next (f u)) s :=
  ⟨f s, rfl, fun rs v => ⟨v, congrArg _ (hf s rs v)⟩⟩

theorem serve_ignoresHistory {f : State → State} (hf : KeepsHistory f) (s : State) :
    IgnoresHistory (fun u => u.serve f) s := by
  obtain ⟨hb, e⟩ | ⟨hb, hp, e⟩ | ⟨hb, hp, e⟩ := serve_cases s f
  · exact ⟨_, e, fun rs v => ⟨v, serve_busy (s.withHistory rs v) f hb⟩⟩
  · refine ⟨_, e, fun rs v => ⟨v, ?_⟩⟩
    dsimp only
    rw [serve_fault (s.withHistory rs v) f hb hp]
    exact congrArg _ (respond_keepsHistory s.fcode.code 0x00#8 s rs v)
  · refine ⟨_, e, fun rs v => ⟨v, ?_⟩⟩
    dsimp only
    rw [serve_ready (s.withHistory rs v) f ⟨hb, hp⟩, hf]

theorem execStatus_ignoresHistory (s : State) : IgnoresHistory execStatus s := by
  cases hb : s.busy with
  | true => exact ⟨s, by simp [execStatus, hb], fun rs v => ⟨v, by simp [execStatus, hb]⟩⟩
  | false =>
    refine ⟨_, execStatus_boundary s hb, fun rs v => ⟨v, ?_⟩⟩
    rw [execStatus_boundary (s.withHistory rs v) hb]
    exact congrArg _ (respond_keepsHistory 0x0#4 s.statusByte s rs v)

theorem microStep_ignoresHistory (layer : NibState → NibState) (s : State) :
    IgnoresHistory (fun u => .next (u.microStep layer)) s :=
  KeepsHistory.next (fun u => advance_keepsHistory { u with S := layer u.S }) s

theorem answer_ignoresHistory (x : FnValue) (s : State) : IgnoresHistory (fun u => u.answer x) s :=
  ⟨_, rfl, fun _ _ => ⟨x, rfl⟩⟩

theorem exec_ignoresHistory (i : Instr) (s : State) : IgnoresHistory (exec i) s := by
  cases i with
  | start => exact serve_ignoresHistory startCommand_keepsHistory s
  | absorb d => exact serve_ignoresHistory (absorbCommand_keepsHistory d) s
  | final => exact serve_ignoresHistory finalCommand_keepsHistory s
  | squeeze k => exact serve_ignoresHistory (squeezeCommand_keepsHistory k) s
  | status => exact execStatus_ignoresHistory s
  | illegal w => exact serve_ignoresHistory (raiseFault_keepsHistory .illegalCmd) s
  | subNibbles => exact microStep_ignoresHistory subNibbles s
  | permuteNibbles => exact microStep_ignoresHistory permuteNibbles s
  | mixColumns => exact microStep_ignoresHistory mixColumns s
  | addConstant =>
    exact KeepsHistory.next (fun u => advance_keepsHistory { u with S := addConstant u.rnd u.S }) s
  | add16 _ _ | encodeByte _ | encodeMessage _ | pad _ | hash _ => exact answer_ignoresHistory _ s
  | decodeByte k => exact answer_ignoresHistory (.byte (decodeByte s.S k)) s
  | round _ | permutation | padInPlace _ | absorbBlock _ | hashScript _ | digest | reset =>
    exact KeepsHistory.next (fun _ _ _ => rfl) s

/-- What the core does next depends on the host's next act and on the sequencer's registers only. -/
theorem fetch_withHistory (s : State) (rs : List Response) (v : FnValue) :
    (s.withHistory rs v).fetch = (s.fetch.1, s.fetch.2.withHistory rs v) := by
  have hown : (s.withHistory rs v).ownStep = s.ownStep := rfl
  rcases hh : s.host with _ | ⟨e, l⟩
  · simp [State.fetch, hh, hown]
  · cases e with
    | word _ | hash _ | digest | reset =>
      cases hb : s.busy with
      | false => simp [State.fetch, hh, hb, State.withHistory]
      | true => simp [State.fetch, hh, hb, hown]
    | wait =>
      rw [fetch_wait hh, fetch_wait (s := s.withHistory rs v) hh, hown]
      rfl
    | resetNow => simp [State.fetch, hh, State.withHistory]

theorem step_ignoresHistory (s : State) : IgnoresHistory step s := by
  have hfetch := fetch_withHistory s
  rcases h : s.fetch with ⟨_ | i, u⟩
  · simp only [h] at hfetch
    exact ⟨u, step_of_fetch_none h, fun rs v => ⟨v, step_of_fetch_none (hfetch rs v)⟩⟩
  · simp only [h] at hfetch
    obtain ⟨t, hexec, hhist⟩ := exec_ignoresHistory i u
    refine ⟨t, (step_of_fetch_some h).trans hexec, fun rs v => ?_⟩
    obtain ⟨v', hexec'⟩ := hhist rs v
    exact ⟨v', (step_of_fetch_some (hfetch rs v)).trans hexec'⟩

theorem run_ignoresHistory (n : Nat) (s : State) : IgnoresHistory (Sys2Proof.core.run n) s := by
  induction n generalizing s with
  | zero => exact ⟨s, run_zero s, fun rs v => ⟨v, run_zero _⟩⟩
  | succ n ih =>
    obtain ⟨u, hstep, hstep'⟩ := step_ignoresHistory s
    obtain ⟨t, hrun, hrun'⟩ := ih u
    refine ⟨t, (run_succ n hstep).trans hrun, fun rs v => ?_⟩
    obtain ⟨v₁, hstep₁⟩ := hstep' rs v
    obtain ⟨v₂, hrun₂⟩ := hrun' rs v₁
    exact ⟨v₂, (run_succ n hstep₁).trans hrun₂⟩

/-- A core that has done nothing but a START, the host going on with `l`. -/
def sessionStart (level : Level) (l : List HostEvent) : State :=
  startCommand { State.reset with level := level, host := l }

/-- START writes `S`, `pos` and `phase`; the other registers have their reset values at a core that is ready (R33). -/
theorem step_start_eq_sessionStart {s : State} {l : List HostEvent} (hs : s.Inv) (hr : s.ready)
    (hh : s.host = .word 0x100#12 :: l) : step s = .next ((sessionStart s.level l).withHistory s.rsps s.value) := by
  obtain ⟨hrnd, hstage, hfin⟩ := hs.atRest hr.1
  rw [step_start hr hh]
  simp [startCommand, sessionStart, State.withHistory, State.respond, State.reset, hrnd, hstage, hfin, hr.1,
    hs.ready_fcode hr]

/-- Settles O52: both runs are the run from `sessionStart`, each with its own history. -/
theorem nothingSurvivesAStart : Obligations.NothingSurvivesAStart := by
  unfold Obligations.NothingSurvivesAStart
  intro s₁ s₂ ws hs₁ hs₂ hr₁ hr₂ hlevel hh₁ hh n
  have hstep₁ := step_start_eq_sessionStart hs₁ hr₁ hh₁
  have hstep₂ := step_start_eq_sessionStart hs₂ hr₂ (hh.trans hh₁)
  rw [← hlevel] at hstep₂
  obtain ⟨t, -, hrun⟩ := run_ignoresHistory n (sessionStart s₁.level (ws.map .word))
  obtain ⟨v₁, hrun₁⟩ := hrun s₁.rsps s₁.value
  obtain ⟨v₂, hrun₂⟩ := hrun s₂.rsps s₂.value
  exact ⟨t.withHistory s₁.rsps v₁, t.withHistory s₂.rsps v₂, t.rsps, (run_succ n hstep₁).trans hrun₁,
    (run_succ n hstep₂).trans hrun₂, rfl, rfl, rfl, rfl, rfl, rfl⟩

end Sys2Proof.Machine
end

section
/-! The sequencer's micro-steps (R160 to R162): each is the layer that `stage` selects, and 64 of them are the
Permutation. -/

namespace Sys2Proof.Machine

/-- The layer that stage `v` selects in round `r` (R66, R160), on the whole state. -/
def stageLayer (v : BitVec 2) (r : BitVec 4) (S : NibState) : NibState :=
  if v = 0#2 then subNibbles S
  else if v = 1#2 then permuteNibbles S
  else if v = 2#2 then mixColumns S
  else addConstant r S

theorem exec_decodeStage (s : State) :
    exec (decodeStage s.stage) s = .next (s.microStep (stageLayer s.stage s.rnd)) := by
  unfold State.microStep stageLayer decodeStage
  split
  · rfl
  split
  · rfl
  split
  · rfl
  · rfl

theorem step_busy_eq_microStep {s : State} (hb : s.busy = true) (hw : ∀ e ∈ s.host, e.waits = true) :
    step s = .next (s.microStep (stageLayer s.stage s.rnd)) :=
  (step_busy s hb hw).trans (exec_decodeStage s)

/-- Settles O56: the layer of `stage`, and the three cases of the counted loop. -/
theorem microStepAppliesOneLayer : Obligations.MicroStepAppliesOneLayer := by
  unfold Obligations.MicroStepAppliesOneLayer
  rintro s T hb hw rfl
  rw [step_busy_eq_microStep hb hw]
  refine ⟨fun hs => ?_, fun hs hr => ?_, fun hs hr hf => ?_, fun hs hr hf => ?_⟩
  · rw [microStep_of_stage _ hb rfl hs]
    rfl
  · rw [microStep_of_round _ hb hs hr]
    rfl
  · rw [microStep_of_last _ hb hs hr, hf]
    rfl
  · rw [microStep_of_last _ hb hs hr, hf]
    rfl

/-- The first `n` layers of a Permutation, four a round. -/
def layersApplied : Nat → NibState → NibState
  | 0, S => S
  | n + 1, S => stageLayer (BitVec.ofNat 2 n) (BitVec.ofNat 4 (n / 4)) (layersApplied n S)

theorem layersApplied_succ (n : Nat) (S : NibState) :
    layersApplied (n + 1) S = stageLayer (BitVec.ofNat 2 n) (BitVec.ofNat 4 (n / 4)) (layersApplied n S) := rfl

theorem stage_of_four_mul_add (r k : Nat) : BitVec.ofNat 2 (4 * r + k) = BitVec.ofNat 2 k := by
  apply BitVec.eq_of_toNat_eq
  simp only [BitVec.toNat_ofNat]
  omega

theorem layersApplied_four_mul (r : Nat) (S : NibState) : layersApplied (4 * r) S = permutationN r S := by
  induction r with
  | zero => rfl
  | succ r ih =>
    have hround : (4 * r + 3) / 4 = r := by omega
    have hfirst : BitVec.ofNat 2 (4 * r) = 0#2 := stage_of_four_mul_add r 0
    rw [Nat.mul_succ, permutationN_succ, ← ih, oneRound]
    simp only [layersApplied_succ, stage_of_four_mul_add, hround, hfirst]
    rfl

/-- A Permutation begun at `s`, after its first `n` layers. -/
def State.sequenced (s : State) (n : Nat) : State :=
  { s with S := layersApplied n s.S, rnd := BitVec.ofNat 4 (n / 4), stage := BitVec.ofNat 2 n }

theorem sequenced_zero {s : State} (hr : s.rnd = 0#4) (hs : s.stage = 0#2) : s.sequenced 0 = s := by
  cases s
  cases hr
  cases hs
  rfl

theorem step_sequenced_eq_microStep {s : State} (hb : s.busy = true) (hw : ∀ e ∈ s.host, e.waits = true) (n : Nat) :
    step (s.sequenced n) =
      .next ((s.sequenced n).microStep (stageLayer (BitVec.ofNat 2 n) (BitVec.ofNat 4 (n / 4)))) :=
  step_busy_eq_microStep hb hw

theorem ofNat_stage_eq_three_iff (n : Nat) : BitVec.ofNat 2 n = 3#2 ↔ n % 4 = 3 := by
  rw [← BitVec.toNat_inj, BitVec.toNat_ofNat, BitVec.toNat_ofNat]

theorem ofNat_round_ne_last {n : Nat} (hn : n < 60) : BitVec.ofNat 4 (n / 4) ≠ 15#4 := by
  rw [ne_eq, ← BitVec.toNat_inj, BitVec.toNat_ofNat, BitVec.toNat_ofNat]
  omega

theorem step_sequenced {s : State} (hb : s.busy = true) (hw : ∀ e ∈ s.host, e.waits = true) {n : Nat} (hn : n < 63) :
    step (s.sequenced n) = .next (s.sequenced (n + 1)) := by
  rw [step_sequenced_eq_microStep hb hw, State.sequenced.eq_def s (n + 1), layersApplied_succ]
  by_cases hs : BitVec.ofNat 2 n = 3#2
  · have hmod := (ofNat_stage_eq_three_iff n).mp hs
    have hround : (n + 1) / 4 = n / 4 + 1 := by omega
    rw [microStep_of_round (s := s.sequenced n) _ hb hs (ofNat_round_ne_last (by omega)), hround, BitVec.ofNat_add (n / 4) 1,
      BitVec.ofNat_add n 1, hs]
    rfl
  · have hmod := mt (ofNat_stage_eq_three_iff n).mpr hs
    have hround : (n + 1) / 4 = n / 4 := by omega
    rw [microStep_of_stage (s := s.sequenced n) _ hb rfl hs, hround, BitVec.ofNat_add n 1]
    rfl

theorem run_sequenced {s : State} (hb : s.busy = true) (hw : ∀ e ∈ s.host, e.waits = true) {n : Nat} (hn : n < 64) :
    Sys2Proof.core.run n (s.sequenced 0) = .next (s.sequenced n) := by
  induction n with
  | zero => rfl
  | succ n ih =>
    have hstep := step_sequenced hb hw (n := n) (by omega)
    exact (run_add n 1 (ih (by omega))).trans (run_succ 0 hstep)

/-- The micro-step of stage 3 in round 15 answers the command (R161). -/
theorem step_sequenced_last {s : State} (hb : s.busy = true) (hw : ∀ e ∈ s.host, e.waits = true) {n : Nat}
    (hs : BitVec.ofNat 2 n = 3#2) (hr : BitVec.ofNat 4 (n / 4) = 15#4) :
    step (s.sequenced n) = .next
      { s with
        S := layersApplied (n + 1) s.S, busy := false, rnd := 0#4, stage := 0#2, pos := 0#5,
        phase := if s.fin then .done else s.phase, fin := false, rsps := s.rsps ++ [0x000#12] } := by
  rw [step_sequenced_eq_microStep hb hw, microStep_of_last (s := s.sequenced n) _ hb hs hr, layersApplied_succ]
  rfl

theorem layersApplied_all (S : NibState) : layersApplied (63 + 1) S = permutation S := by
  rw [permutation_eq, ← layersApplied_four_mul]

theorem run_permutation {s : State} (hb : s.busy = true) (hr : s.rnd = 0#4) (hs : s.stage = 0#2)
    (hw : ∀ e ∈ s.host, e.waits = true) :
    Sys2Proof.core.run 64 s = .next
      { s with
        S := permutation s.S, busy := false, rnd := 0#4, stage := 0#2, pos := 0#5,
        phase := if s.fin then .done else s.phase, fin := false, rsps := s.rsps ++ [0x000#12] } := by
  have hrun := run_sequenced hb hw (n := 63) (by decide)
  rw [sequenced_zero hr hs] at hrun
  rw [← layersApplied_all]
  exact (run_add 63 1 hrun).trans (run_succ 0 (step_sequenced_last hb hw rfl rfl))

/-- Settles O57: after `n` micro-steps the core is `s.sequenced n`, and the last one ends the Permutation. -/
theorem sixtyFourMicroStepsAreThePermutation : Obligations.SixtyFourMicroStepsAreThePermutation := by
  unfold Obligations.SixtyFourMicroStepsAreThePermutation
  intro s hb hr hs hw
  constructor
  · rw [run_permutation hb hr hs hw, hr, hs]
  · intro n hn
    have hrun := run_sequenced hb hw hn
    rw [sequenced_zero hr hs] at hrun
    exact ⟨_, hrun, hb, rfl, rfl⟩

end Sys2Proof.Machine
end

section
/-! The five commands at a core that takes them (R150 to R155), and the refined machine's start of a Permutation (R159). -/

namespace Sys2Proof.Machine

/-- Settles O8: `exec_ignoresHistory` and `step_ignoresHistory` name the next state. -/
theorem everyStepAnswersANextState : Obligations.EveryStepAnswersANextState := by
  unfold Obligations.EveryStepAnswersANextState
  refine ⟨fun i s => ?_, fun s => ?_⟩
  · obtain ⟨t, hexec, -⟩ := exec_ignoresHistory i s
    exact ⟨t, hexec⟩
  · obtain ⟨t, hstep, -⟩ := step_ignoresHistory s
    exact ⟨t, hstep⟩

theorem ready_of_phase {s : State} {p : Phase} (hb : s.busy = false) (hp : s.phase = p) (hne : p ≠ .fault) : s.ready :=
  ⟨hb, hp ▸ hne⟩

theorem exec_start {s : State} (hr : s.ready) : exec .start s = .next (startCommand s) := serve_ready s startCommand hr

theorem exec_absorb (d : Byte) {s : State} (hr : s.ready) : exec (.absorb d) s = .next (absorbCommand d s) :=
  serve_ready s (absorbCommand d) hr

theorem exec_final {s : State} (hr : s.ready) : exec .final s = .next (finalCommand s) := serve_ready s finalCommand hr

theorem exec_squeeze (i : BitVec 5) {s : State} (hr : s.ready) : exec (.squeeze i) s = .next (squeezeCommand i s) :=
  serve_ready s (squeezeCommand i) hr

theorem exec_status {s : State} (hb : s.busy = false) : exec .status s = .next (s.respond 0#4 s.statusByte) :=
  execStatus_boundary s hb

theorem exec_illegal (w : Command) {s : State} (hr : s.ready) : exec (.illegal w) s = .next (s.raiseFault .illegalCmd) :=
  serve_ready s (fun t => t.raiseFault .illegalCmd) hr

theorem exec_absorb_fault (d : Byte) {s : State} (hr : s.ready) (hp : s.phase ≠ .absorb) :
    exec (.absorb d) s = .next (s.raiseFault .seqAbsorb) := by
  rw [exec_absorb d hr, absorbCommand_fault d s hp]

theorem exec_final_fault {s : State} (hr : s.ready) (hp : s.phase ≠ .absorb) :
    exec .final s = .next (s.raiseFault .seqFinal) := by
  rw [exec_final hr, finalCommand_fault s hp]

theorem exec_squeeze_fault (i : BitVec 5) {s : State} (hr : s.ready) (hp : s.phase ≠ .done) :
    exec (.squeeze i) s = .next (s.raiseFault .seqSqueeze) := by
  rw [exec_squeeze i hr, squeezeCommand_fault i s hp]

/-- Settles O32: START writes the same state whatever it finds. -/
theorem startZeroesTheState : Obligations.StartZeroesTheState := by
  unfold Obligations.StartZeroesTheState
  intro s hr
  have hagain : (startCommand s).ready := ⟨hr.1, by simp [startCommand]⟩
  refine ⟨zeroState, fun i => zeroState_get i.val i.isLt, exec_start hr, (exec_start hagain).trans ?_⟩
  simp [startCommand, State.respond, responseWord]

/-- ABSORB's two additions, the high nibble first (R152). -/
def addByte (S : NibState) (p : BitVec 5) (d : Byte) : NibState :=
  addAt (addAt S (rateIndex p) (hiNibble d)) (rateIndex (p + 1#5)) (loNibble d)

/-- At an even position the two additions stay side by side: `p + 1` does not wrap. -/
theorem addByte_get (S : NibState) {p : BitVec 5} (heven : p.toNat % 2 = 0) (d : Byte) (j : Nat) (hj : j < 64) :
    (addByte S p d)[j] =
      if j = p.toNat then add16 S[j] (BitVec.ofNat 4 (d.toNat / 16))
      else if j = p.toNat + 1 then add16 S[j] (BitVec.ofNat 4 (d.toNat % 16))
      else S[j] := by
  have hval : ∀ q : BitVec 5, (rateIndex q).val = q.toNat := fun _ => rfl
  have hnext : (p + 1#5).toNat = p.toNat + 1 := by
    rw [BitVec.toNat_add, BitVec.toNat_ofNat]
    omega
  rw [addByte, addAt_get _ _ _ _ hj, addAt_get _ _ _ _ hj, hval, hval, hnext, ← hiNibble_eq_ofNat, ← loNibble_eq_ofNat]
  by_cases hfirst : j = p.toNat
  · rw [if_neg (by omega), if_pos hfirst.symm, if_pos hfirst, add16]
  · by_cases hsecond : j = p.toNat + 1
    · rw [if_pos hsecond.symm, if_neg (Ne.symm hfirst), if_neg hfirst, if_pos hsecond, add16]
    · rw [if_neg (Ne.symm hsecond), if_neg (Ne.symm hfirst), if_neg hfirst, if_neg hsecond]

/-- ABSORB of the byte that fills the block, on the command-level machine. -/
theorem absorbCommand_close_command (d : Byte) {s : State} (hp : s.phase = .absorb) (hpos : s.pos = 30#5)
    (hl : s.level = .command) :
    absorbCommand d s =
      { s with S := permutation (addByte s.S s.pos d), pos := 0#5, rsps := s.rsps ++ [0x000#12] } :=
  (absorbCommand_close d s hp hpos).trans (closeBlock_command { s with S := addByte s.S s.pos d } false hl)

/-- ABSORB of the byte that fills the block, on the refined machine. -/
theorem absorbCommand_close_micro (d : Byte) {s : State} (hp : s.phase = .absorb) (hpos : s.pos = 30#5)
    (hl : s.level = .micro) :
    absorbCommand d s =
      { s with S := addByte s.S s.pos d, busy := true, rnd := 0#4, stage := 0#2, fin := false } :=
  (absorbCommand_close d s hp hpos).trans (closeBlock_micro { s with S := addByte s.S s.pos d } false hl)

theorem finalCommand_command {s : State} (hp : s.phase = .absorb) (hl : s.level = .command) :
    finalCommand s =
      { s with S := permutation (padInPlace s.S s.pos), pos := 0#5, phase := .done, rsps := s.rsps ++ [0x000#12] } :=
  (finalCommand_absorb s hp).trans (closeBlock_command { s with S := padInPlace s.S s.pos } true hl)

theorem finalCommand_micro {s : State} (hp : s.phase = .absorb) (hl : s.level = .micro) :
    finalCommand s =
      { s with S := padInPlace s.S s.pos, busy := true, rnd := 0#4, stage := 0#2, fin := true } :=
  (finalCommand_absorb s hp).trans (closeBlock_micro { s with S := padInPlace s.S s.pos } true hl)

/-- Settles O33: the two additions nibble by nibble, and the three cases of the command. -/
theorem absorbAddsOneByte : Obligations.AbsorbAddsOneByte := by
  unfold Obligations.AbsorbAddsOneByte
  refine fun d s hb heven => ⟨fun hp => ?_, fun hp => ?_⟩
  · refine ⟨addByte s.S s.pos d, fun j => addByte_get s.S heven d j.val j.isLt, fun hpos => ?_, fun hpos hl => ?_⟩
    · rw [exec_absorb d (ready_of_phase hb hp (by decide)), absorbCommand_open d s hp hpos]
      rfl
    · rw [exec_absorb d (ready_of_phase hb hp (by decide)), absorbCommand_close_command d hp hpos hl]
  · obtain ⟨hne, hfault⟩ : s.phase ≠ .absorb ∧ s.phase ≠ .fault := by obtain h | h := hp <;> simp [h]
    exact exec_absorb_fault d ⟨hb, hfault⟩ hne

/-- The padding's two additions at an even position, where they cannot meet (R127). -/
theorem padInPlace_get_even (S : NibState) {p : BitVec 5} (heven : p.toNat % 2 = 0) (j : Nat) (hj : j < 64) :
    (padInPlace S p)[j] =
      if j = p.toNat then add16 S[j] 8#4 else if j = 31 then add16 S[j] 1#4 else S[j] := by
  rw [padInPlace_get _ _ _ hj]
  by_cases hfirst : j = p.toNat
  · rw [if_pos hfirst.symm, if_neg (by omega), if_pos hfirst, BitVec.add_zero, add16]
  · by_cases hlast : j = 31
    · rw [if_neg (Ne.symm hfirst), if_pos hlast.symm, if_neg hfirst, if_pos hlast, BitVec.add_zero, add16]
    · rw [if_neg (Ne.symm hfirst), if_neg (Ne.symm hlast), if_neg hfirst, if_neg hlast, BitVec.add_zero, BitVec.add_zero]

theorem exec_final_command {s : State} (hb : s.busy = false) (hp : s.phase = .absorb) (hl : s.level = .command) :
    exec .final s = .next
      { s with S := permutation (padInPlace s.S s.pos), pos := 0#5, phase := .done, rsps := s.rsps ++ [0x000#12] } := by
  rw [exec_final (ready_of_phase hb hp (by decide)), finalCommand_command hp hl]

/-- Settles O34: the padding nibble by nibble, and the two cases of the command. -/
theorem finalPadsPermutesAndEntersDone : Obligations.FinalPadsPermutesAndEntersDone := by
  unfold Obligations.FinalPadsPermutesAndEntersDone
  refine fun s hb heven => ⟨fun hp hl => ?_, fun hp => ?_⟩
  · refine ⟨padInPlace s.S s.pos, fun j => padInPlace_get_even s.S heven j.val j.isLt,
      exec_final_command hb hp hl⟩
  · obtain ⟨hne, hfault⟩ : s.phase ≠ .absorb ∧ s.phase ≠ .fault := by obtain h | h := hp <;> simp [h]
    exact exec_final_fault ⟨hb, hfault⟩ hne

/-- An OK response is its data byte as a number. -/
theorem responseWord_ok (d : Byte) : responseWord 0#4 d = BitVec.ofNat 12 d.toNat := by
  apply BitVec.eq_of_toNat_eq
  rw [responseWord, BitVec.toNat_append, BitVec.toNat_ofNat]
  have hd := d.isLt
  simp
  omega

theorem decodeByte_toNat (S : NibState) (i : BitVec 5) :
    (decodeByte S i).toNat = 16 * (S[2 * i.toNat]).toNat + (S[2 * i.toNat + 1]).toNat := by
  rw [decodeByte_eq_append, append_nib_toNat]

/-- Settles O35: the response word of a digest byte, and the fault elsewhere. -/
theorem squeezeReadsADigestByte : Obligations.SqueezeReadsADigestByte := by
  unfold Obligations.SqueezeReadsADigestByte
  refine fun i s hb => ⟨fun hp => ?_, fun hp => ?_⟩
  · rw [exec_squeeze_done i hb hp, State.respond, responseWord_ok, decodeByte_toNat]
  · obtain ⟨hne, hfault⟩ : s.phase ≠ .done ∧ s.phase ≠ .fault := by obtain h | h := hp <;> simp [h]
    exact exec_squeeze_fault i ⟨hb, hfault⟩ hne

theorem statusByte_toNat (s : State) : s.statusByte.toNat = 16 * s.fcode.code.toNat + s.phase.code.toNat := by
  unfold State.statusByte
  cases s.fcode <;> cases s.phase <;> rfl

theorem statusByte_reserved (s : State) : s.statusByte.extractLsb' 2 2 = 0#2 := by
  unfold State.statusByte
  cases s.fcode <;> cases s.phase <;> rfl

theorem statusByte_phase (s : State) : s.statusByte.extractLsb' 0 2 = s.phase.code := BitVec.extractLsb'_append_eq_right

theorem statusByte_fcode (s : State) : s.statusByte.extractLsb' 4 4 = s.fcode.code := by
  unfold State.statusByte
  cases s.fcode <;> cases s.phase <;> rfl

/-- R27: the values of STATUS where R33 holds of `fcode`. -/
theorem statusByte_values {s : State} (h : s.fcode = .none ↔ s.phase ≠ .fault) :
    s.statusByte.toNat ∈ [0x00, 0x01, 0x02, 0x13, 0x23, 0x33, 0x43] := by
  rw [statusByte_toNat]
  revert h
  cases s.fcode <;> cases s.phase <;> decide

/-- Settles O36: the STATUS byte by its fields and as a number. -/
theorem statusAnswersPhaseAndFault : Obligations.StatusAnswersPhaseAndFault := by
  unfold Obligations.StatusAnswersPhaseAndFault
  refine fun s hb => ⟨?_, statusByte_reserved s, statusByte_phase s, statusByte_fcode s, statusByte_values⟩
  rw [exec_status hb, State.respond, responseWord_ok, statusByte_toNat]

theorem advance_host (s : State) : s.advance.host = s.host := by
  unfold State.advance
  split
  · rfl
  split
  · rfl
  split <;> rfl

theorem microStep_host (s : State) (layer : NibState → NibState) : (s.microStep layer).host = s.host := advance_host _

/-- Settles O55: the block is closed by starting the sequencer, and a micro-step takes nothing from the port. -/
theorem startingAPermutationMakesTheCoreBusy : Obligations.StartingAPermutationMakesTheCoreBusy := by
  unfold Obligations.StartingAPermutationMakesTheCoreBusy
  refine ⟨fun d s hb hp hl hpos => ?_, fun s hb hp hl => ?_, fun s w l hb hh => ?_⟩
  · have hget := addByte_get s.S (p := 30#5) (by decide) d
    refine ⟨addByte s.S 30#5 d, hget 30 (by decide), hget 31 (by decide), fun j h30 h31 => ?_, ?_⟩
    · exact (hget j.val j.isLt).trans ((if_neg h30).trans (if_neg h31))
    · rw [exec_absorb d (ready_of_phase hb hp (by decide)), absorbCommand_close_micro d hp hpos hl, hpos]
  · rw [exec_final (ready_of_phase hb hp (by decide)), finalCommand_micro hp hl]
  · have hstep := step_busy_of_waits s (.word w) l hb hh rfl
    exact ⟨_, hstep.trans (exec_decodeStage s), (microStep_host s _).trans hh, hstep⟩

end Sys2Proof.Machine
end

section
/-! The refined machine against the command-level one (R162): word by word both come to the same state, the refined one
after at most 64 micro-steps more. -/

namespace Sys2Proof.Machine

/-- The core as the machine `L`. -/
def State.atLevel (s : State) (L : Level) : State := { s with level := L }

/-- The sequencer's registers at a command boundary (R33). -/
structure State.AtRest (s : State) : Prop where
  notBusy : s.busy = false
  rndZero : s.rnd = 0#4
  stageZero : s.stage = 0#2
  notFin : s.fin = false

/-- What a command writes on the command-level machine leaves the sequencer at rest. -/
theorem State.AtRest.withData {s : State} (hs : s.AtRest) (S : NibState) (pos : BitVec 5) (phase : Phase)
    (fcode : FaultCode) (host : List HostEvent) (rsps : List Response) :
    ({ s with S := S, pos := pos, phase := phase, fcode := fcode, host := host, rsps := rsps } : State).AtRest :=
  ⟨hs.notBusy, hs.rndZero, hs.stageZero, hs.notFin⟩

/-- `f` takes `s` to one and the same state at rest on both machines: at command level at once, on the refined machine after
at most 64 further steps. The host's next acts stay. -/
def Refines (f : State → Result) (s : State) : Prop :=
  ∃ (t u : State) (k : Nat), f (s.atLevel .command) = .next (t.atLevel .command) ∧ f (s.atLevel .micro) = .next u ∧
    Sys2Proof.core.run k u = .next (t.atLevel .micro) ∧ k ≤ 64 ∧ t.AtRest ∧ t.host = s.host

/-- `Refines` looks at `f` on the two machines only. -/
theorem Refines.congr {f g : State → Result} {s s' : State} (hg : Refines g s')
    (h : ∀ L, f (s.atLevel L) = g (s'.atLevel L)) (hh : s'.host = s.host) : Refines f s := by
  obtain ⟨t, u, k, hcommand, hmicro, hrun, hk, ht, hthost⟩ := hg
  exact ⟨t, u, k, (h _).trans hcommand, (h _).trans hmicro, hrun, hk, ht, hthost.trans hh⟩

/-- An operation that does not look at the level. -/
theorem Refines.of_forall_level {f : State → Result} {s t : State} (h : ∀ L, f (s.atLevel L) = .next (t.atLevel L))
    (ht : t.AtRest) (hh : t.host = s.host) : Refines f s :=
  ⟨t, _, 0, h _, h _, run_zero _, Nat.zero_le _, ht, hh⟩

theorem respond_refines {s : State} (hs : s.AtRest) (st : BitVec 4) (d : Byte) :
    Refines (fun u => .next (u.respond st d)) s :=
  .of_forall_level (t := s.respond st d) (fun _ => rfl) (hs.withData ..) rfl

theorem raiseFault_refines {s : State} (hs : s.AtRest) (c : FaultCode) : Refines (fun u => .next (u.raiseFault c)) s :=
  .of_forall_level (t := s.raiseFault c) (fun _ => rfl) (hs.withData ..) rfl

/-- The two machines part where a block is closed, and `run_permutation` brings them together again. -/
theorem closeBlock_refines {s : State} (hs : s.AtRest) (hw : ∀ e ∈ s.host, e.waits = true) (final : Bool) :
    Refines (fun u => .next (u.closeBlock final)) s := by
  have hmicro := closeBlock_micro (s.atLevel .micro) final rfl
  have hrun := run_permutation (s := { s.atLevel .micro with busy := true, rnd := 0#4, stage := 0#2, fin := final })
    rfl rfl rfl hw
  refine ⟨{ s with
      S := permutation s.S, pos := 0#5, phase := if final then .done else s.phase, rsps := s.rsps ++ [0x000#12] },
    _, 64, congrArg _ (closeBlock_command _ final rfl), congrArg _ hmicro, hrun.trans ?_, le_rfl, hs.withData .., rfl⟩
  rw [State.atLevel, State.atLevel, hs.notBusy, hs.rndZero, hs.stageZero, hs.notFin]

theorem startCommand_refines {s : State} (hs : s.AtRest) : Refines (fun u => .next (startCommand u)) s :=
  .of_forall_level (t := startCommand s) (fun _ => rfl) (hs.withData ..) rfl

theorem absorbCommand_refines (d : Byte) {s : State} (hs : s.AtRest) (hw : ∀ e ∈ s.host, e.waits = true) :
    Refines (fun u => .next (absorbCommand d u)) s := by
  by_cases hp : s.phase = .absorb
  · by_cases hpos : s.pos = 30#5
    · exact (closeBlock_refines (s := { s with S := addByte s.S s.pos d }) (hs.withData ..) hw false).congr
        (fun L => congrArg _ (absorbCommand_close d (s.atLevel L) hp hpos)) rfl
    · exact (respond_refines (s := { s with S := addByte s.S s.pos d, pos := s.pos + 2#5 }) (hs.withData ..) _ _).congr
        (fun L => congrArg _ (absorbCommand_open d (s.atLevel L) hp hpos)) rfl
  · exact (raiseFault_refines hs .seqAbsorb).congr (fun L => congrArg _ (absorbCommand_fault d (s.atLevel L) hp)) rfl

theorem finalCommand_refines {s : State} (hs : s.AtRest) (hw : ∀ e ∈ s.host, e.waits = true) :
    Refines (fun u => .next (finalCommand u)) s := by
  by_cases hp : s.phase = .absorb
  · exact (closeBlock_refines (s := { s with S := padInPlace s.S s.pos }) (hs.withData ..) hw true).congr
      (fun L => congrArg _ (finalCommand_absorb (s.atLevel L) hp)) rfl
  · exact (raiseFault_refines hs .seqFinal).congr (fun L => congrArg _ (finalCommand_fault (s.atLevel L) hp)) rfl

theorem squeezeCommand_refines (i : BitVec 5) {s : State} (hs : s.AtRest) :
    Refines (fun u => .next (squeezeCommand i u)) s := by
  by_cases hp : s.phase = .done
  · exact (respond_refines hs 0#4 (decodeByte s.S i)).congr
      (fun L => congrArg _ (squeezeCommand_done i (s.atLevel L) hp)) rfl
  · exact (raiseFault_refines hs .seqSqueeze).congr (fun L => congrArg _ (squeezeCommand_fault i (s.atLevel L) hp)) rfl

theorem serve_refines {f : State → State} {s : State} (hs : s.AtRest) (hf : Refines (fun u => .next (f u)) s) :
    Refines (fun u => u.serve f) s := by
  by_cases hp : s.phase = .fault
  · exact (respond_refines hs s.fcode.code 0x00#8).congr (fun L => serve_fault (s.atLevel L) f hs.notBusy hp) rfl
  · exact hf.congr (fun L => serve_ready (s.atLevel L) f ⟨hs.notBusy, hp⟩) rfl

theorem exec_decodeCommand_refines (w : Command) {s : State} (hs : s.AtRest) (hw : ∀ e ∈ s.host, e.waits = true) :
    Refines (exec (decodeCommand w)) s := by
  obtain ⟨-, e⟩ | ⟨d, -, e⟩ | ⟨-, e⟩ | ⟨i, -, e⟩ | ⟨-, e⟩ | ⟨-, e⟩ := decodeCommand_cases w
  all_goals rw [e]
  · exact serve_refines hs (startCommand_refines hs)
  · exact serve_refines hs (absorbCommand_refines d hs hw)
  · exact serve_refines hs (finalCommand_refines hs hw)
  · exact serve_refines hs (squeezeCommand_refines i hs)
  · exact (respond_refines hs 0#4 s.statusByte).congr (fun L => exec_status (s := s.atLevel L) hs.notBusy) rfl
  · exact serve_refines hs (raiseFault_refines hs .illegalCmd)

/-- The acts that give command words wait for a busy core. -/
theorem words_wait (ws : List Command) : ∀ e ∈ ws.map HostEvent.word, e.waits = true := by
  simp [HostEvent.waits]

theorem step_word_refines {s : State} {w : Command} {ws : List Command} (hs : s.AtRest)
    (hh : s.host = .word w :: ws.map .word) :
    ∃ (t u : State) (k : Nat), step (s.atLevel .command) = .next (t.atLevel .command) ∧
      step (s.atLevel .micro) = .next u ∧ Sys2Proof.core.run k u = .next (t.atLevel .micro) ∧ k ≤ 64 ∧ t.AtRest ∧
      t.host = ws.map .word := by
  have hstep : ∀ L, step (s.atLevel L) = exec (decodeCommand w) (({ s with host := ws.map .word } : State).atLevel L) :=
    fun L => step_word (s.atLevel L) w _ hs.notBusy hh
  obtain ⟨t, u, k, hcommand, hmicro, hrun, hk, ht, hthost⟩ :=
    exec_decodeCommand_refines w (s := { s with host := ws.map .word }) (hs.withData ..) (words_wait ws)
  exact ⟨t, u, k, (hstep _).trans hcommand, (hstep _).trans hmicro, hrun, hk, ht, hthost⟩

theorem run_words_refines (ws : List Command) {s : State} (hs : s.AtRest) (hh : s.host = ws.map .word) :
    ∃ (t : State) (n : Nat), Sys2Proof.core.run ws.length (s.atLevel .command) = .next (t.atLevel .command) ∧
      Sys2Proof.core.run n (s.atLevel .micro) = .next (t.atLevel .micro) ∧ t.host = [] ∧ t.AtRest ∧
      n ≤ 65 * ws.length := by
  induction ws generalizing s with
  | nil => exact ⟨s, 0, run_zero _, run_zero _, hh, hs, Nat.zero_le _⟩
  | cons w ws ih =>
    obtain ⟨t, u, k, hcommand, hmicro, hrun, hk, ht, hthost⟩ := step_word_refines hs hh
    obtain ⟨v, n, hcommands, hmicros, hvhost, hv, hn⟩ := ih ht hthost
    refine ⟨v, k + n + 1, (run_succ _ hcommand).trans hcommands, ?_, hvhost, hv, ?_⟩
    · exact (run_succ _ hmicro).trans ((run_add k n hrun).trans hmicros)
    · rw [List.length_cons]
      omega

/-- Settles O58: an induction on the words, each of which `step_word_refines` takes through both machines. -/
theorem refinedMachineIsIndistinguishable : Obligations.RefinedMachineIsIndistinguishable := by
  unfold Obligations.RefinedMachineIsIndistinguishable
  intro s ws hb hr hs hf
  obtain ⟨t, n, hcommand, hmicro, hhost, ht, hn⟩ :=
    run_words_refines ws (s := { s with host := ws.map .word }) ⟨hb, hr, hs, hf⟩ rfl
  exact ⟨t, n, hcommand, hmicro, hhost, ht.notBusy, hn⟩

end Sys2Proof.Machine
end

section
/-! The session theorem (R156): START, the bytes of a message and FINAL, with STATUS between. -/

namespace Sys2Proof.Machine

/-- `n` responses, all OK. -/
def OkResponses (n : Nat) (rs : List Response) : Prop := rs.length = n ∧ ∀ r ∈ rs, statusCode r = 0#4

theorem OkResponses.nil : OkResponses 0 [] := ⟨rfl, by simp⟩

theorem OkResponses.cons {n : Nat} {rs : List Response} (h : OkResponses n rs) (d : Byte) :
    OkResponses (n + 1) (responseWord 0#4 d :: rs) := by
  obtain ⟨hlen, hok⟩ := h
  exact ⟨by simp [hlen], by simpa using hok⟩

/-- The words other than STATUS. -/
def withoutStatus (ws : List Command) : List Command := ws.filter fun w => w != 0x500#12

theorem withoutStatus_status (ws : List Command) : withoutStatus (0x500#12 :: ws) = withoutStatus ws := rfl

theorem withoutStatus_other {w : Command} (hw : w ≠ 0x500#12) (ws : List Command) :
    withoutStatus (w :: ws) = w :: withoutStatus ws := by
  simp [withoutStatus, hw]

/-- From `u` on every one of the words is answered OK, and the core then is what `g` makes of `s` with these answers. -/
def AnswersOk (ws : List Command) (l : List HostEvent) (s u : State) (g : State → State) : Prop :=
  ∃ rs, OkResponses ws.length rs ∧ Sys2Proof.core.run ws.length u = .next (g (s.answered l rs))

theorem AnswersOk.nil {l : List HostEvent} {s : State} (g : State → State) (hh : s.host = l) : AnswersOk [] l s (g s) g :=
  ⟨[], .nil, by rw [answered_nil hh]; exact run_zero _⟩

/-- One word more in front, answered OK. -/
theorem AnswersOk.cons {w : Command} {ws : List Command} {l l' : List HostEvent} {s u u' : State} {g : State → State}
    {d : Byte} (hstep : step u = .next u') (h : AnswersOk ws l (s.answered l' [responseWord 0#4 d]) u' g) :
    AnswersOk (w :: ws) l s u g := by
  obtain ⟨rs, hok, hrun⟩ := h
  rw [answered_answered] at hrun
  exact ⟨_, hok.cons d, (run_succ _ hstep).trans hrun⟩

theorem step_status_holding {s : State} {l : List HostEvent} (S : NibState) (p : BitVec 5) (ph : Phase)
    (hb : s.busy = false) (hh : s.host = .word 0x500#12 :: l) :
    step (s.holding S p ph) =
      .next ((s.answered l [responseWord 0#4 (s.holding S p ph).statusByte]).holding S p ph) := by
  rw [step_word (s.holding S p ph) _ l hb hh, decodeCommand_status]
  exact exec_status hb

/-- STATUS commands alone change no register. -/
theorem statuses_answersOk {ws : List Command} (l : List HostEvent) {s : State} (S : NibState) (p : BitVec 5) (ph : Phase)
    (hb : s.busy = false) (hws : withoutStatus ws = []) (hh : s.host = ws.map .word ++ l) :
    AnswersOk ws l s (s.holding S p ph) (·.holding S p ph) := by
  induction ws generalizing s with
  | nil => exact .nil (·.holding S p ph) hh
  | cons w ws ih =>
    by_cases hw : w = 0x500#12
    · subst hw
      exact .cons (step_status_holding S p ph hb hh) (ih hb hws rfl)
    · simp [withoutStatus_other hw] at hws

/-- The rest of a session, from the bytes `m` on. -/
theorem absorbs_final_answersOk {ws : List Command} (l : List HostEvent) {s : State} (m ds : List Byte)
    (hb : s.busy = false) (hl : s.level = .command)
    (hws : withoutStatus ws = ds.map (fun d => 0x200#12 + d.setWidth 12) ++ [0x300#12])
    (hh : s.host = ws.map .word ++ l) :
    AnswersOk ws l s (s.absorbed m) (·.holding (hashState (m ++ ds)) 0#5 .done) := by
  induction ws generalizing s m ds with
  | nil => simp [withoutStatus] at hws
  | cons w ws ih =>
    by_cases hw : w = 0x500#12
    · subst hw
      exact .cons (step_status_holding _ _ _ hb hh) (ih m ds hb hl hws rfl)
    · rw [withoutStatus_other hw] at hws
      cases ds with
      | nil =>
        obtain ⟨rfl, hrest⟩ : w = 0x300#12 ∧ withoutStatus ws = [] := by simpa using hws
        rw [List.append_nil]
        exact .cons (d := 0x00#8) (step_final_absorbed m hb hl hh) (statuses_answersOk l _ _ _ hb hrest rfl)
      | cons d ds =>
        obtain ⟨rfl, hrest⟩ := List.cons_eq_cons.mp hws
        rw [List.append_cons m d ds]
        exact .cons (d := 0x00#8) (step_absorbed m hb hl hh) (ih (m ++ [d]) ds hb hl hrest rfl)

/-- A whole session, with STATUS anywhere after START. -/
theorem session_answersOk {ws : List Command} (l : List HostEvent) {s : State} (m : List Byte) (hr : s.ready)
    (hl : s.level = .command) (hhead : ws.head? = some 0x100#12)
    (hws : withoutStatus ws = [0x100#12] ++ m.map (fun d => 0x200#12 + d.setWidth 12) ++ [0x300#12])
    (hh : s.host = ws.map .word ++ l) : AnswersOk ws l s s (·.holding (hashState m) 0#5 .done) := by
  obtain ⟨ws, rfl⟩ := List.head?_eq_some_iff.mp hhead
  rw [withoutStatus_other (by decide)] at hws
  obtain ⟨-, hrest⟩ := List.cons_eq_cons.mp hws
  exact .cons (d := 0x00#8) (step_start_absorbed hr hh) (absorbs_final_answersOk l [] m hr.1 hl hrest rfl)

/-- Settles O50: the words one by one, each of which keeps the closed form of the open block, then `hashState m` in `S`. -/
theorem sessionComputesTheHash : Obligations.SessionComputesTheHash := by
  unfold Obligations.SessionComputesTheHash
  intro s m ws l hr hl hhead hws hh
  obtain ⟨rs, ⟨hlen, hok⟩, hrun⟩ := session_answersOk l m hr hl hhead hws hh
  refine ⟨_, rs, hrun, rfl, rfl, rfl, hr.1, rfl, hlen, hok, rfl, fun i => ?_⟩
  exact ⟨_, decodeDigest_getElem? (hashState m) i, exec_squeeze_done i hr.1 rfl⟩

end Sys2Proof.Machine
end

section
/-! The table of phase transitions (R157), one lemma a column. -/

namespace Sys2Proof.Machine

/-- A step in which the host gives neither a word nor a reset. -/
theorem step_keeps_phase {s t : State} (hb : s.busy = false) (hword : ∀ w l, s.host ≠ .word w :: l)
    (hreset : ∀ l, s.host ≠ .reset :: l ∧ s.host ≠ .resetNow :: l) (h : step s = .next t) : t.phase = s.phase := by
  rcases hh : s.host with _ | ⟨e, l⟩
  · rw [step_idle s hb hh] at h
    cases h
    rfl
  · cases e with
    | word w => exact absurd hh (hword w l)
    | hash m =>
      rw [step_hash s m l hb hh, exec_hashScript] at h
      cases h
      rfl
    | digest =>
      rw [step_digest s l hb hh, exec_digest] at h
      cases h
      rfl
    | reset => exact absurd hh (hreset l).1
    | resetNow => exact absurd hh (hreset l).2
    | wait =>
      rw [step_ready_wait s l hb hh] at h
      cases h
      rfl

/-- FAULT's row of the table: nothing changes, and only STATUS is answered OK (R184). -/
theorem exec_decodeCommand_fault (w : Command) {s : State} (hb : s.busy = false) (hp : s.phase = .fault) :
    ∃ r, exec (decodeCommand w) s = .next { s with rsps := s.rsps ++ [r] } ∧
      statusCode r = if w = 0x500#12 then 0#4 else s.fcode.code := by
  by_cases hw : w = 0x500#12
  · subst hw
    exact ⟨_, by rw [decodeCommand_status]; exact exec_status hb, by simp⟩
  · have hserve := fun f => serve_fault s f hb hp
    have hcode : statusCode (responseWord s.fcode.code 0x00#8) = if w = 0x500#12 then 0#4 else s.fcode.code := by simp [hw]
    refine ⟨_, ?_, hcode⟩
    obtain ⟨-, e⟩ | ⟨d, -, e⟩ | ⟨-, e⟩ | ⟨i, -, e⟩ | ⟨hstatus, -⟩ | ⟨-, e⟩ := decodeCommand_cases w
    · rw [e]; exact hserve _
    · rw [e]; exact hserve _
    · rw [e]; exact hserve _
    · rw [e]; exact hserve _
    · exact absurd hstatus hw
    · rw [e]; exact hserve fun t => t.raiseFault .illegalCmd

/-- ABSORB in its own phase, whether its byte fills the block or not. -/
theorem exec_absorb_answers (d : Byte) {s : State} (hb : s.busy = false) (hp : s.phase = .absorb)
    (hl : s.level = .command) :
    ∃ t, exec (.absorb d) s = .next t ∧ t.rsps = s.rsps ++ [0x000#12] ∧ t.host = s.host ∧ t.busy = false ∧
      t.phase = .absorb := by
  obtain ⟨-, hphase, hbusy, -, hhost⟩ := absorbCommand_registers d hp hl
  refine ⟨_, exec_absorb d (ready_of_phase hb hp (by decide)), ?_, hhost, hbusy.trans hb, hphase⟩
  by_cases hpos : s.pos = 30#5
  · rw [absorbCommand_close_command d hp hpos hl]
  · rw [absorbCommand_open d s hp hpos]
    rfl

/-- Settles O37: FAULT's row, then a column for each command. -/
theorem phaseTransitionsAreTheTable : Obligations.PhaseTransitionsAreTheTable := by
  unfold Obligations.PhaseTransitionsAreTheTable
  refine ⟨fun s => ⟨_, exec_reset s, rfl⟩, fun s t => step_keeps_phase, fun s w l hb hl hh => ?_⟩
  have hstep := step_word s w l hb hh
  by_cases hp : s.phase = .fault
  · obtain ⟨r, hexec, hr⟩ := exec_decodeCommand_fault w (s := { s with host := l }) hb hp
    exact ⟨_, r, hstep.trans hexec, rfl, rfl, hb, fun _ => ⟨rfl, hr⟩, fun h => absurd hp h⟩
  have hready : ({ s with host := l } : State).ready := ⟨hb, hp⟩
  obtain ⟨-, e⟩ | ⟨d, -, e⟩ | ⟨-, e⟩ | ⟨i, -, e⟩ | ⟨-, e⟩ | ⟨-, e⟩ := decodeCommand_cases w
  all_goals rw [e] at hstep
  · exact ⟨_, _, hstep.trans (exec_start hready), rfl, rfl, hb, fun h => absurd h hp,
      fun _ => by simp [e, startCommand]⟩
  · by_cases ha : s.phase = .absorb
    · obtain ⟨t, hexec, hrsps, hhost, hbusy, hphase⟩ := exec_absorb_answers d (s := { s with host := l }) hb ha hl
      exact ⟨t, _, hstep.trans hexec, hrsps, hhost, hbusy, fun h => absurd h hp,
        fun _ => by simp [e, ha, hphase, statusCode]⟩
    · exact ⟨_, _, hstep.trans (exec_absorb_fault d hready ha), rfl, rfl, hb, fun h => absurd h hp,
        fun _ => by simp [e, ha, FaultCode.code]⟩
  · by_cases ha : s.phase = .absorb
    · exact ⟨_, _, hstep.trans (exec_final_command hb ha hl), rfl, rfl, hb, fun h => absurd h hp,
        fun _ => by simp [e, ha, statusCode]⟩
    · exact ⟨_, _, hstep.trans (exec_final_fault hready ha), rfl, rfl, hb, fun h => absurd h hp,
        fun _ => by simp [e, ha, FaultCode.code]⟩
  · by_cases hd : s.phase = .done
    · exact ⟨_, _, hstep.trans (exec_squeeze_done i hb hd), rfl, rfl, hb, fun h => absurd h hp,
        fun _ => by simp [e, hd, State.respond]⟩
    · exact ⟨_, _, hstep.trans (exec_squeeze_fault i hready hd), rfl, rfl, hb, fun h => absurd h hp,
        fun _ => by simp [e, hd, FaultCode.code]⟩
  · exact ⟨_, _, hstep.trans (exec_status hb), rfl, rfl, hb, fun h => absurd h hp, fun _ => by simp [e, State.respond]⟩
  · exact ⟨_, _, hstep.trans (exec_illegal w hready), rfl, rfl, hb, fun h => absurd h hp,
      fun _ => by simp [e, FaultCode.code]⟩

end Sys2Proof.Machine
end

section
/-! No intermediate state is visible (R158): outside DONE nothing that an operation of a step writes, `S` apart, depends
on `S`. -/

namespace Sys2Proof.Machine

/-- `s` with another state array. -/
def State.withS (s : State) (S : NibState) : State := { s with S := S }

/-- With another `S` the state that `f` makes of `s` differs in `S` only. -/
def HidesS (f : State → State) (s : State) : Prop := ∀ S, ∃ T, f (s.withS S) = (f s).withS T

theorem respond_hidesS (st : BitVec 4) (d : Byte) (s : State) : HidesS (fun u => u.respond st d) s := fun S => ⟨S, rfl⟩

theorem raiseFault_hidesS (c : FaultCode) (s : State) : HidesS (fun u => u.raiseFault c) s := fun S => ⟨S, rfl⟩

theorem closeBlock_hidesS (final : Bool) (s : State) : HidesS (fun u => u.closeBlock final) s := fun S => by
  cases hl : s.level with
  | command =>
    refine ⟨permutation S, ?_⟩
    dsimp only
    rw [closeBlock_command s final hl, closeBlock_command (s.withS S) final hl]
    rfl
  | micro =>
    refine ⟨S, ?_⟩
    dsimp only
    rw [closeBlock_micro s final hl, closeBlock_micro (s.withS S) final hl]
    rfl

theorem advance_withS (s : State) (S : NibState) : (s.withS S).advance = s.advance.withS S := by
  cases hb : s.busy with
  | false => rw [advance_idle s hb, advance_idle (s.withS S) hb]
  | true =>
    by_cases hv : s.stage = 3#2
    · by_cases hr : s.rnd = 15#4
      · rw [advance_last s hb hv hr, advance_last (s.withS S) hb hv hr]
        rfl
      · rw [advance_round s hb hv hr, advance_round (s.withS S) hb hv hr]
        rfl
    · rw [advance_stage s hb hv, advance_stage (s.withS S) hb hv]
      rfl

theorem microStep_withS (layer : NibState → NibState) (s : State) (S : NibState) :
    (s.withS S).microStep layer = (s.microStep layer).withS (layer S) :=
  (advance_withS s (layer S)).trans (congrArg (·.withS (layer S)) (advance_withS s (layer s.S)).symm)

theorem absorbCommand_hidesS (d : Byte) (s : State) : HidesS (absorbCommand d) s := fun S => by
  by_cases hp : s.phase = .absorb
  · by_cases hpos : s.pos = 30#5
    · rw [absorbCommand_close d s hp hpos, absorbCommand_close d (s.withS S) hp hpos]
      exact closeBlock_hidesS false { s with S := addByte s.S s.pos d } (addByte S s.pos d)
    · rw [absorbCommand_open d s hp hpos, absorbCommand_open d (s.withS S) hp hpos]
      exact ⟨addByte S s.pos d, rfl⟩
  · rw [absorbCommand_fault d s hp, absorbCommand_fault d (s.withS S) hp]
    exact raiseFault_hidesS _ s S

theorem finalCommand_hidesS (s : State) : HidesS finalCommand s := fun S => by
  by_cases hp : s.phase = .absorb
  · rw [finalCommand_absorb s hp, finalCommand_absorb (s.withS S) hp]
    exact closeBlock_hidesS true { s with S := padInPlace s.S s.pos } (padInPlace S s.pos)
  · rw [finalCommand_fault s hp, finalCommand_fault (s.withS S) hp]
    exact raiseFault_hidesS _ s S

/-- The one command that reads `S` out is served in DONE only. -/
theorem squeezeCommand_hidesS (i : BitVec 5) {s : State} (hp : s.phase ≠ .done) : HidesS (squeezeCommand i) s :=
  fun S => by
    rw [squeezeCommand_fault i s hp, squeezeCommand_fault i (s.withS S) hp]
    exact raiseFault_hidesS _ s S

/-- `f` answers a next state on `s`, and with another `S` one that differs in `S` only. -/
def BlindToS (f : State → Result) (s : State) : Prop :=
  ∃ t, f s = .next t ∧ ∀ S, ∃ T, f (s.withS S) = .next (t.withS T)

theorem HidesS.next {f : State → State} {s : State} (hf : HidesS f s) : BlindToS (fun u => .next (f u)) s := by
  refine ⟨f s, rfl, fun S => ?_⟩
  obtain ⟨T, hT⟩ := hf S
  exact ⟨T, congrArg _ hT⟩

theorem serve_blindToS {f : State → State} {s : State} (hf : HidesS f s) : BlindToS (fun u => u.serve f) s := by
  obtain ⟨hb, e⟩ | ⟨hb, hp, e⟩ | ⟨hb, hp, e⟩ := serve_cases s f
  · exact ⟨_, e, fun S => ⟨S, serve_busy (s.withS S) f hb⟩⟩
  · exact ⟨_, e, fun S => ⟨S, serve_fault (s.withS S) f hb hp⟩⟩
  · refine ⟨_, e, fun S => ?_⟩
    obtain ⟨T, hT⟩ := hf S
    exact ⟨T, (serve_ready (s.withS S) f ⟨hb, hp⟩).trans (congrArg _ hT)⟩

theorem execStatus_blindToS (s : State) : BlindToS execStatus s := by
  cases hb : s.busy with
  | true => exact ⟨s, by simp [execStatus, hb], fun S => ⟨S, by simp [execStatus, State.withS, hb]⟩⟩
  | false => exact ⟨_, execStatus_boundary s hb, fun S => ⟨S, execStatus_boundary (s.withS S) hb⟩⟩

theorem microStep_blindToS (layer : NibState → NibState) (s : State) :
    BlindToS (fun u => .next (u.microStep layer)) s :=
  HidesS.next fun S => ⟨layer S, microStep_withS layer s S⟩

/-- Every operation but DECODE_BYTE, which no step runs and whose value is read from `S`. -/
theorem exec_blindToS {i : Instr} {s : State} (hi : ∀ k, i ≠ .decodeByte k) (hp : s.phase ≠ .done) :
    BlindToS (exec i) s := by
  cases i with
  | start => exact serve_blindToS fun S => ⟨zeroState, rfl⟩
  | absorb d => exact serve_blindToS (absorbCommand_hidesS d s)
  | final => exact serve_blindToS (finalCommand_hidesS s)
  | squeeze k => exact serve_blindToS (squeezeCommand_hidesS k hp)
  | status => exact execStatus_blindToS s
  | illegal w => exact serve_blindToS (raiseFault_hidesS .illegalCmd s)
  | subNibbles => exact microStep_blindToS subNibbles s
  | permuteNibbles => exact microStep_blindToS permuteNibbles s
  | mixColumns => exact microStep_blindToS mixColumns s
  | addConstant => exact ⟨_, rfl, fun S =>
    ⟨addConstant s.rnd S, congrArg Host.Outcome.next (microStep_withS (addConstant s.rnd) s S)⟩⟩
  | decodeByte k => exact absurd rfl (hi k)
  | add16 _ _ | encodeByte _ | encodeMessage _ | pad _ | hash _ | hashScript _ | digest =>
    exact ⟨_, rfl, fun S => ⟨S, rfl⟩⟩
  | round r => exact ⟨_, rfl, fun S => ⟨oneRound r S, rfl⟩⟩
  | permutation => exact ⟨_, rfl, fun S => ⟨permutation S, rfl⟩⟩
  | padInPlace pos => exact ⟨_, rfl, fun S => ⟨padInPlace S pos, rfl⟩⟩
  | absorbBlock p => exact ⟨_, rfl, fun S => ⟨absorbBlock S p, rfl⟩⟩
  | reset => exact ⟨_, rfl, fun _ => ⟨State.reset.S, rfl⟩⟩

theorem decodeCommand_ne_decodeByte (w : Command) (k : BitVec 5) : decodeCommand w ≠ .decodeByte k := by
  obtain ⟨-, e⟩ | ⟨d, -, e⟩ | ⟨-, e⟩ | ⟨i, -, e⟩ | ⟨-, e⟩ | ⟨-, e⟩ := decodeCommand_cases w
  all_goals simp [e]

theorem decodeStage_ne_decodeByte : ∀ (v : BitVec 2) (k : BitVec 5), decodeStage v ≠ .decodeByte k := by decide

/-- What the core does next does not depend on `S`: it waits, or runs an operation, which is never DECODE_BYTE. -/
theorem step_withS (s : State) :
    (∃ l, ∀ S, step (s.withS S) = .next (({ s with host := l } : State).withS S)) ∨
    ∃ i l, (∀ k, i ≠ .decodeByte k) ∧ ∀ S, step (s.withS S) = exec i (({ s with host := l } : State).withS S) := by
  have hstage := decodeStage_ne_decodeByte s.stage
  rcases Bool.eq_false_or_eq_true s.busy with hb | hb
  · rcases hh : s.host with _ | ⟨e, l⟩
    · exact .inr ⟨_, s.host, hstage, fun S => step_busy (s.withS S) hb (by simp [State.withS, hh])⟩
    · cases e with
      | resetNow => exact .inr ⟨.reset, l, by simp, fun S => step_resetNow (s.withS S) l hh⟩
      | wait => exact .inr ⟨_, l, hstage, fun S => step_busy_wait (s.withS S) l hb hh⟩
      | word _ | hash _ | digest | reset =>
        exact .inr ⟨_, s.host, hstage, fun S => step_busy_of_waits (s.withS S) _ l hb hh rfl⟩
  · rcases hh : s.host with _ | ⟨e, l⟩
    · exact .inl ⟨s.host, fun S => step_idle (s.withS S) hb hh⟩
    · cases e with
      | word w => exact .inr ⟨_, l, decodeCommand_ne_decodeByte w, fun S => step_word (s.withS S) w l hb hh⟩
      | hash m => exact .inr ⟨.hashScript m, l, by simp, fun S => step_hash (s.withS S) m l hb hh⟩
      | digest => exact .inr ⟨.digest, l, by simp, fun S => step_digest (s.withS S) l hb hh⟩
      | reset => exact .inr ⟨.reset, l, by simp, fun S => step_reset (s.withS S) l hb hh⟩
      | resetNow => exact .inr ⟨.reset, l, by simp, fun S => step_resetNow (s.withS S) l hh⟩
      | wait => exact .inl ⟨l, fun S => step_ready_wait (s.withS S) l hb hh⟩

theorem step_blindToS {s : State} (hp : s.phase ≠ .done) : BlindToS step s := by
  obtain ⟨l, hstep⟩ | ⟨i, l, hi, hstep⟩ := step_withS s
  · exact ⟨_, hstep s.S, fun S => ⟨S, hstep S⟩⟩
  · obtain ⟨t, hexec, hblind⟩ := exec_blindToS (s := { s with host := l }) hi hp
    refine ⟨t, (hstep s.S).trans hexec, fun S => ?_⟩
    obtain ⟨T, hT⟩ := hblind S
    exact ⟨T, (hstep S).trans hT⟩

/-- In DONE a word that is not START leaves `S`. -/
theorem exec_decodeCommand_done_keeps_S (w : Command) {s t : State} (hb : s.busy = false) (hp : s.phase = .done)
    (h : exec (decodeCommand w) s = .next t) (ht : t.phase ≠ .absorb) : t.S = s.S := by
  have hr := ready_of_phase hb hp (by decide)
  obtain ⟨-, e⟩ | ⟨d, -, e⟩ | ⟨-, e⟩ | ⟨i, -, e⟩ | ⟨-, e⟩ | ⟨-, e⟩ := decodeCommand_cases w
  all_goals rw [e] at h
  · rw [exec_start hr] at h
    cases h
    exact absurd rfl ht
  · rw [exec_absorb_fault d hr (by simp [hp])] at h
    cases h
    rfl
  · rw [exec_final_fault hr (by simp [hp])] at h
    cases h
    rfl
  · rw [exec_squeeze_done i hb hp] at h
    cases h
    rfl
  · rw [exec_status hb] at h
    cases h
    rfl
  · rw [exec_illegal w hr] at h
    cases h
    rfl

theorem step_done_keeps_S {s t : State} (hb : s.busy = false) (hp : s.phase = .done) (h : step s = .next t)
    (ht : t.phase = .done ∨ t.phase = .fault) : t.S = s.S := by
  obtain ⟨-, l, e⟩ | ⟨hbusy, -⟩ | ⟨-, w, l, e⟩ | ⟨-, m, l, e⟩ | ⟨-, l, e⟩ | ⟨l, e⟩ := step_cases s
  · cases e.symm.trans h
    rfl
  · simp [hb] at hbusy
  · exact exec_decodeCommand_done_keeps_S w (s := { s with host := l }) hb hp (e.symm.trans h)
      (by obtain ht | ht := ht <;> simp [ht])
  · cases e.symm.trans h
    rfl
  · cases e.symm.trans h
    rfl
  · cases e.symm.trans h
    simp at ht

/-- Settles O53: `BlindToS` for a step outside DONE, and the words one by one in DONE. -/
theorem noIntermediateStateIsVisible : Obligations.NoIntermediateStateIsVisible := by
  unfold Obligations.NoIntermediateStateIsVisible
  refine ⟨fun s t S hp h => ?_, fun s t => step_done_keeps_S⟩
  obtain ⟨u, hstep, hblind⟩ := step_blindToS hp
  cases hstep.symm.trans h
  obtain ⟨T, hT⟩ := hblind S
  exact ⟨_, hT, rfl⟩

end Sys2Proof.Machine
end

section
/-! FAULT is absorbing (R184, R185): no word, no pseudo-command and no waiting changes a register there. -/

namespace Sys2Proof.Machine

/-- A fault's response as a number (R64, R182). -/
theorem responseWord_fcode (c : FaultCode) : responseWord c.code 0x00#8 = BitVec.ofNat 12 (256 * c.code.toNat) := by
  cases c <;> rfl

/-- The refusal of R184: its status is the stored code and its data zero. -/
theorem exec_decodeCommand_refused {w : Command} {s : State} (hb : s.busy = false) (hp : s.phase = .fault)
    (hw : w ≠ 0x500#12) : exec (decodeCommand w) s = .next (s.respond s.fcode.code 0x00#8) := by
  have hserve := fun f => serve_fault s f hb hp
  obtain ⟨-, e⟩ | ⟨d, -, e⟩ | ⟨-, e⟩ | ⟨i, -, e⟩ | ⟨hstatus, -⟩ | ⟨-, e⟩ := decodeCommand_cases w
  · rw [e]; exact hserve startCommand
  · rw [e]; exact hserve (absorbCommand d)
  · rw [e]; exact hserve finalCommand
  · rw [e]; exact hserve (squeezeCommand i)
  · exact absurd hstatus hw
  · rw [e]; exact hserve fun t => t.raiseFault .illegalCmd

/-- Settles O40: `exec_decodeCommand_refused`, and STATUS as R155 answers it in every phase. -/
theorem faultRefusesEveryWordButStatus : Obligations.FaultRefusesEveryWordButStatus := by
  unfold Obligations.FaultRefusesEveryWordButStatus
  refine fun s w l hb hp hh => ⟨fun hw => ?_, fun hw => ?_⟩
  all_goals rw [step_word s w l hb hh]
  · rw [← responseWord_fcode]
    exact exec_decodeCommand_refused (s := { s with host := l }) hb hp hw
  · have hphase : s.phase.code.toNat = 3 := by rw [hp]; rfl
    obtain ⟨hstatus, -⟩ := statusAnswersPhaseAndFault { s with host := l } hb
    rw [hw, decodeCommand_status, ← hphase]
    exact hstatus

/-- The words that a pseudo-command stands for hold no reset (R69). -/
theorem giveWords_noReset {s : State} (hs : ∀ e ∈ s.host, e.isReset = false) (ws : List Command) :
    ∀ e ∈ (s.giveWords ws).host, e.isReset = false := by
  rw [State.giveWords_host, List.forall_mem_append]
  exact ⟨by simp [HostEvent.isReset], hs⟩

/-- A step in FAULT, unless it is a reset, moves on in the host's acts and answers, and changes nothing else. -/
theorem step_fault {s : State} (hb : s.busy = false) (hp : s.phase = .fault) (hs : ∀ e ∈ s.host, e.isReset = false) :
    ∃ l rs, step s = .next { s with host := l, rsps := rs } ∧ ∀ e ∈ l, e.isReset = false := by
  rcases hh : s.host with _ | ⟨e, l⟩
  · exact ⟨s.host, s.rsps, step_idle s hb hh, hs⟩
  · rw [hh, List.forall_mem_cons] at hs
    obtain ⟨he, hl⟩ := hs
    cases e with
    | word w =>
      obtain ⟨r, hexec, -⟩ := exec_decodeCommand_fault w (s := { s with host := l }) hb hp
      exact ⟨l, _, (step_word s w l hb hh).trans hexec, hl⟩
    | hash m =>
      exact ⟨_, s.rsps, step_hash s m l hb hh, giveWords_noReset (s := { s with host := l }) hl (sessionWords m)⟩
    | digest => exact ⟨_, s.rsps, step_digest s l hb hh, giveWords_noReset (s := { s with host := l }) hl digestWords⟩
    | wait => exact ⟨l, s.rsps, step_ready_wait s l hb hh, hl⟩
    | reset | resetNow => simp [HostEvent.isReset] at he

theorem run_fault (n : Nat) {s : State} (hb : s.busy = false) (hp : s.phase = .fault)
    (hs : ∀ e ∈ s.host, e.isReset = false) :
    ∃ l rs, Sys2Proof.core.run n s = .next { s with host := l, rsps := rs } := by
  induction n generalizing s with
  | zero => exact ⟨s.host, s.rsps, run_zero s⟩
  | succ n ih =>
    obtain ⟨l, rs, hstep, hl⟩ := step_fault hb hp hs
    obtain ⟨l', rs', hrun⟩ := ih (s := { s with host := l, rsps := rs }) hb hp hl
    exact ⟨l', rs', (run_succ n hstep).trans hrun⟩

/-- Settles O41: `run_fault`, an induction on the steps, and the reset event. -/
theorem onlyResetLeavesFault : Obligations.OnlyResetLeavesFault := by
  unfold Obligations.OnlyResetLeavesFault
  refine ⟨fun n s hb hp hs => ?_, fun s => ⟨_, exec_reset s, rfl, rfl⟩⟩
  obtain ⟨l, rs, hrun⟩ := run_fault n hb hp hs
  exact ⟨_, hrun, hp, rfl, rfl, rfl, hb⟩

end Sys2Proof.Machine
end

section
/-! The faults (R181 to R183), and that each is seen (R193). -/

namespace Sys2Proof.Machine

/-- The list of R181: which operation raises which fault, and in which phases. -/
inductive Raises : Instr → Phase → FaultCode → Prop where
  | illegalCmd (w : Command) (p : Phase) : Raises (.illegal w) p .illegalCmd
  | seqAbsorb (d : Byte) {p : Phase} (hp : p = .idle ∨ p = .done) : Raises (.absorb d) p .seqAbsorb
  | seqFinal {p : Phase} (hp : p = .idle ∨ p = .done) : Raises .final p .seqFinal
  | seqSqueeze (i : BitVec 5) {p : Phase} (hp : p = .idle ∨ p = .absorb) : Raises (.squeeze i) p .seqSqueeze

theorem Raises.exec_eq {i : Instr} {s : State} {c : FaultCode} (hr : s.ready) (h : Raises i s.phase c) :
    exec i s = .next (s.raiseFault c) := by
  cases h with
  | illegalCmd w => exact exec_illegal w hr
  | seqAbsorb d hp => exact exec_absorb_fault d hr (by obtain h | h := hp <;> simp [h])
  | seqFinal hp => exact exec_final_fault hr (by obtain h | h := hp <;> simp [h])
  | seqSqueeze i hp => exact exec_squeeze_fault i hr (by obtain h | h := hp <;> simp [h])

/-- A fault is precise (R182): the command has no other effect. -/
theorem Raises.step_eq {s : State} {w : Command} {l : List HostEvent} {c : FaultCode}
    (h : Raises (decodeCommand w) s.phase c) (hr : s.ready) (hh : s.host = .word w :: l) :
    step s = .next (({ s with host := l } : State).raiseFault c) :=
  (step_word s w l hr.1 hh).trans (exec_eq (s := { s with host := l }) hr h)

theorem closeBlock_raises_nothing {s : State} (hp : s.phase ≠ .fault) (final : Bool) :
    (s.closeBlock final).phase ≠ .fault ∧ (s.closeBlock final).fcode = s.fcode := by
  cases hl : s.level with
  | command =>
    rw [closeBlock_command s final hl]
    cases final <;> simp [hp]
  | micro =>
    rw [closeBlock_micro s final hl]
    exact ⟨hp, rfl⟩

theorem absorbCommand_raises_nothing (d : Byte) {s : State} (hp : s.phase = .absorb) :
    (absorbCommand d s).phase ≠ .fault ∧ (absorbCommand d s).fcode = s.fcode := by
  by_cases hpos : s.pos = 30#5
  · rw [absorbCommand_close d s hp hpos]
    exact closeBlock_raises_nothing (by simp [hp]) false
  · rw [absorbCommand_open d s hp hpos]
    simp [hp]

theorem finalCommand_raises_nothing {s : State} (hp : s.phase = .absorb) :
    (finalCommand s).phase ≠ .fault ∧ (finalCommand s).fcode = s.fcode := by
  rw [finalCommand_absorb s hp]
  exact closeBlock_raises_nothing (by simp [hp]) true

/-- The list of R181 is complete: a word that raises none of its faults leaves the core out of FAULT. -/
theorem exec_decodeCommand_raises (w : Command) {s : State} (hr : s.ready) :
    (∃ c, Raises (decodeCommand w) s.phase c) ∨
    ∃ t, exec (decodeCommand w) s = .next t ∧ t.phase ≠ .fault ∧ t.fcode = s.fcode := by
  have ⟨hb, hp⟩ := hr
  obtain ⟨-, e⟩ | ⟨d, -, e⟩ | ⟨-, e⟩ | ⟨i, -, e⟩ | ⟨-, e⟩ | ⟨-, e⟩ := decodeCommand_cases w
  all_goals rw [e]
  · exact .inr ⟨_, exec_start hr, by simp [startCommand]⟩
  · cases hphase : s.phase with
    | idle => exact .inl ⟨_, .seqAbsorb d (.inl rfl)⟩
    | absorb => exact .inr ⟨_, exec_absorb d hr, absorbCommand_raises_nothing d hphase⟩
    | done => exact .inl ⟨_, .seqAbsorb d (.inr rfl)⟩
    | fault => exact absurd hphase hp
  · cases hphase : s.phase with
    | idle => exact .inl ⟨_, .seqFinal (.inl rfl)⟩
    | absorb => exact .inr ⟨_, exec_final hr, finalCommand_raises_nothing hphase⟩
    | done => exact .inl ⟨_, .seqFinal (.inr rfl)⟩
    | fault => exact absurd hphase hp
  · cases hphase : s.phase with
    | idle => exact .inl ⟨_, .seqSqueeze i (.inl rfl)⟩
    | absorb => exact .inl ⟨_, .seqSqueeze i (.inr rfl)⟩
    | done => exact .inr ⟨_, exec_squeeze_done i hb hphase, hp, rfl⟩
    | fault => exact absurd hphase hp
  · exact .inr ⟨_, exec_status hb, hp, rfl⟩
  · exact .inl ⟨_, .illegalCmd w s.phase⟩

/-- What a word at a ready core can do about faults. -/
theorem step_word_raises {s t : State} {w : Command} {l : List HostEvent} (hr : s.ready) (hh : s.host = .word w :: l)
    (h : step s = .next t) :
    (∃ c, Raises (decodeCommand w) s.phase c ∧ t = ({ s with host := l } : State).raiseFault c) ∨
      (t.phase ≠ .fault ∧ t.fcode = s.fcode) := by
  obtain ⟨c, hc⟩ | ⟨u, hexec, hu⟩ := exec_decodeCommand_raises w (s := { s with host := l }) hr
  · cases (Raises.step_eq (s := s) hc hr hh).symm.trans h
    exact .inl ⟨c, hc, rfl⟩
  · cases ((step_word s w l hr.1 hh).trans hexec).symm.trans h
    exact .inr hu

/-- Settles O38: each row of `Raises`, and that there is no other. -/
theorem faultEntryWritesOnlyPhaseAndCode : Obligations.FaultEntryWritesOnlyPhaseAndCode := by
  unfold Obligations.FaultEntryWritesOnlyPhaseAndCode
  intro s w l hb hp hh
  have hraise : ∀ {c}, Raises (decodeCommand w) s.phase c → _ := fun h => h.step_eq ⟨hb, hp⟩ hh
  refine ⟨fun ⟨v, e⟩ => hraise (e ▸ .illegalCmd v s.phase), fun ⟨d, e⟩ h => hraise (e ▸ .seqAbsorb d h),
    fun e h => hraise (e ▸ .seqFinal h), fun ⟨i, e⟩ h => hraise (e ▸ .seqSqueeze i h), fun t hstep ht => ?_⟩
  obtain ⟨c, hc, -⟩ | ⟨hne, -⟩ := step_word_raises ⟨hb, hp⟩ hh hstep
  · generalize decodeCommand w = i at hc ⊢
    cases hc with
    | illegalCmd v => exact .inl ⟨v, rfl⟩
    | seqAbsorb d h => exact .inr (.inl ⟨⟨d, rfl⟩, h⟩)
    | seqFinal h => exact .inr (.inr (.inl ⟨rfl, h⟩))
    | seqSqueeze k h => exact .inr (.inr (.inr ⟨⟨k, rfl⟩, h⟩))
  · exact absurd ht hne

/-- The decode check comes before the phase check (R183). -/
theorem step_word_not_legal {s : State} {w : Command} {l : List HostEvent} (hr : s.ready) (hh : s.host = .word w :: l)
    (hw : legalWord w = false) : step s = .next (({ s with host := l } : State).raiseFault .illegalCmd) :=
  Raises.step_eq (decodeCommand_of_not_legal hw ▸ .illegalCmd w s.phase) hr hh

/-- Of the faults in `Raises` a legal word raises only those of the sequence. -/
theorem Raises.seq_of_legal {w : Command} {p : Phase} {c : FaultCode} (h : Raises (decodeCommand w) p c)
    (hw : legalWord w = true) : c = .seqAbsorb ∨ c = .seqFinal ∨ c = .seqSqueeze := by
  have hword := encode_decodeCommand w
  generalize hi : decodeCommand w = i at h hword
  cases h with
  | illegalCmd v =>
    cases hword
    simp [(decodeCommand_eq_illegal_iff w).mp hi] at hw
  | seqAbsorb => exact .inl rfl
  | seqFinal => exact .inr (.inl rfl)
  | seqSqueeze => exact .inr (.inr rfl)

/-- Settles O39: FAULT first, then the decode check, then the sequence faults of a legal word. -/
theorem decodeCheckComesBeforeThePhaseCheck : Obligations.DecodeCheckComesBeforeThePhaseCheck := by
  unfold Obligations.DecodeCheckComesBeforeThePhaseCheck
  refine fun s w l hb hh => ⟨fun hp t h => ?_, fun hp hw t h => ?_, fun hp hw t h hne => ?_, fun hp hw => ?_⟩
  · obtain ⟨r, hexec, -⟩ := exec_decodeCommand_fault w (s := { s with host := l }) hb hp
    cases ((step_word s w l hb hh).trans hexec).symm.trans h
    exact ⟨rfl, hp⟩
  · cases (step_word_not_legal ⟨hb, hp⟩ hh hw).symm.trans h
    exact ⟨rfl, rfl⟩
  · obtain ⟨c, hc, rfl⟩ | ⟨-, hsame⟩ := step_word_raises ⟨hb, hp⟩ hh h
    · exact hc.seq_of_legal hw
    · exact absurd hsame hne
  · exact ⟨_, step_word_not_legal (ready_of_phase hb hp (by decide)) hh (hw ▸ by decide), rfl, rfl⟩

theorem FaultCode.code_ne_zero {c : FaultCode} (hc : c ≠ .none) : c.code ≠ 0#4 := by
  cases c with
  | none => exact absurd rfl hc
  | illegalCmd | seqAbsorb | seqFinal | seqSqueeze => decide

theorem Raises.ne_none {i : Instr} {p : Phase} {c : FaultCode} (h : Raises i p c) : c ≠ .none := by
  cases h <;> decide

/-- Settles O42: a word in FAULT, a word that raises a fault, and any other; and `run_fault` for the runs. -/
theorem goneWrongIsSeenAndNeverCleared : Obligations.GoneWrongIsSeenAndNeverCleared := by
  unfold Obligations.GoneWrongIsSeenAndNeverCleared
  refine ⟨fun s w l hs hb hl hh => ?_, fun n s hs hhost => ?_⟩
  · have hgone : s.phase = .fault ↔ s.fcode ≠ .none := by rw [Ne, hs.fcodeFault, not_not]
    by_cases hp : s.phase = .fault
    · obtain ⟨r, hexec, hr⟩ := exec_decodeCommand_fault w (s := { s with host := l }) hb hp
      refine ⟨_, r, (step_word s w l hb hh).trans hexec, rfl, ?_, hgone⟩
      have hcode : s.fcode.code ≠ 0#4 := FaultCode.code_ne_zero (hgone.mp hp)
      by_cases hw : w = 0x500#12 <;> simp [hr, hp, hw, hcode]
    · obtain ⟨t, r, hstep, hrsps, -, -, hstatus, -⟩ := everyWordGetsOneResponse s w l hb hl hh
      refine ⟨t, r, hstep, hrsps, ?_, hgone⟩
      obtain ⟨c, hc, rfl⟩ | ⟨hne, -⟩ := step_word_raises ⟨hb, hp⟩ hh hstep
      · obtain rfl : responseWord c.code 0x00#8 = r := by simpa using hrsps
        simp [FaultCode.code_ne_zero hc.ne_none, hp]
      · exact iff_of_false (fun h => hne (hstatus h).1) fun h => hne h.1
  · by_cases hf : s.fcode = .none
    · obtain ⟨t, hrun, -⟩ := run_ignoresHistory n s
      exact ⟨t, hrun, fun _ => hf⟩
    · have hp : s.phase = .fault := by rwa [hs.fcodeFault, not_not] at hf
      have hb : s.busy = false := by
        rw [← Bool.not_eq_true]
        exact fun hb => by simp [hs.runningInAbsorb hb] at hp
      obtain ⟨l, rs, hrun⟩ := run_fault n hb hp hhost
      exact ⟨_, hrun, fun h => h⟩

end Sys2Proof.Machine
end

section
/-! A reset in the middle of a Permutation (R211). -/

namespace Sys2Proof.Machine

/-- How many of the 64 layers of the running Permutation are done (R160, R161). -/
def State.layersDone (s : State) : Nat := 4 * s.rnd.toNat + s.stage.toNat

/-- Before the last layer a micro-step moves the sequencer on by one layer and answers nothing (R161). -/
theorem microStep_before_last (layer : NibState → NibState) {s : State} (hb : s.busy = true) (hn : s.layersDone < 63) :
    ∃ r v, s.microStep layer = { s with S := layer s.S, rnd := r, stage := v } ∧
      4 * r.toNat + v.toNat = s.layersDone + 1 := by
  unfold State.layersDone at hn ⊢
  by_cases hs : s.stage = 3#2
  · have hstage : s.stage.toNat = 3 := congrArg BitVec.toNat hs
    have hr : s.rnd ≠ 15#4 := fun hr => by simp [hr, hs] at hn
    refine ⟨_, _, microStep_of_round layer hb hs hr, ?_⟩
    have hround : (s.rnd + 1#4).toNat = s.rnd.toNat + 1 := BitVec.toNat_add_of_lt (by rw [BitVec.toNat_ofNat]; omega)
    rw [hround, hstage, BitVec.toNat_ofNat]
    omega
  · have hne : s.stage.toNat ≠ 3 := fun h => hs (BitVec.eq_of_toNat_eq h)
    refine ⟨_, _, microStep_of_stage layer hb rfl hs, ?_⟩
    have hstage : (s.stage + 1#2).toNat = s.stage.toNat + 1 := BitVec.toNat_add_of_lt (by rw [BitVec.toNat_ofNat]; omega)
    rw [hstage]
    omega

theorem step_wait_before_last {s : State} {l : List HostEvent} (hb : s.busy = true) (hn : s.layersDone < 63)
    (hh : s.host = .wait :: l) :
    ∃ S r v, step s = .next { s with S := S, rnd := r, stage := v, host := l } ∧
      4 * r.toNat + v.toNat = s.layersDone + 1 := by
  obtain ⟨r, v, hmicro, hdone⟩ := microStep_before_last (stageLayer s.stage s.rnd) (s := { s with host := l }) hb hn
  have hstep := (step_busy_wait s l hb hh).trans (exec_decodeStage { s with host := l })
  exact ⟨_, r, v, hmicro ▸ hstep, hdone⟩

/-- Settles O45, by induction on the micro-steps before the reset: each leaves the core `busy`, with nothing answered. -/
theorem resetAbandonsARunningCommand : Obligations.ResetAbandonsARunningCommand := by
  unfold Obligations.ResetAbandonsARunningCommand
  intro s k l hb hn hh
  induction k generalizing s with
  | zero => exact run_succ 0 ((step_resetNow s l hh).trans (exec_reset _))
  | succ k ih =>
    obtain ⟨S, r, v, hstep, hdone⟩ := step_wait_before_last hb (by unfold State.layersDone; omega) hh
    unfold State.layersDone at hdone
    rw [run_succ (k + 1) hstep]
    exact ih { s with S := S, rnd := r, stage := v, host := _ } hb (by dsimp only; omega) rfl

end Sys2Proof.Machine
end

section
/-! The digest stays readable (R207, R44). -/

namespace Sys2Proof.Machine

/-- In DONE, SQUEEZE and STATUS are answered OK and write no register (R154, R155). -/
theorem exec_readout {s : State} {w : Command} (hb : s.busy = false) (hp : s.phase = .done)
    (hw : decodeCommand w = .status ∨ ∃ i, decodeCommand w = .squeeze i) :
    ∃ d, exec (decodeCommand w) s = .next (s.respond 0#4 d) := by
  obtain hstatus | ⟨i, hsqueeze⟩ := hw
  · exact ⟨_, hstatus ▸ exec_status hb⟩
  · exact ⟨_, hsqueeze ▸ exec_squeeze_done i hb hp⟩

/-- Any number of them, by induction on the words. -/
theorem readouts_answersOk {ws : List Command} (l : List HostEvent) {s : State} (hb : s.busy = false)
    (hp : s.phase = .done) (hws : ∀ w ∈ ws, decodeCommand w = .status ∨ ∃ i, decodeCommand w = .squeeze i)
    (hh : s.host = ws.map .word ++ l) : AnswersOk ws l s s id := by
  induction ws generalizing s with
  | nil => exact .nil id hh
  | cons w ws ih =>
    obtain ⟨hw, hrest⟩ := List.forall_mem_cons.mp hws
    obtain ⟨d, hexec⟩ := exec_readout (s := { s with host := ws.map .word ++ l }) hb hp hw
    exact .cons ((step_word s w _ hb hh).trans hexec) (ih hb hp hrest rfl)

/-- Settles O54: `readouts_answersOk`, whose answers are moreover all OK. -/
theorem digestStaysReadable : Obligations.DigestStaysReadable := by
  unfold Obligations.DigestStaysReadable
  intro s ws l hb hp hws hh
  obtain ⟨rs, ⟨hlen, -⟩, hrun⟩ := readouts_answersOk l hb hp hws hh
  exact ⟨rs, hlen, hrun⟩

end Sys2Proof.Machine
end

section
/-! What a layer loses (41_round_layers.md, section 8): MixColumns maps two states to one, each other layer has every
nibble read back. -/

namespace Sys2Proof.Machine

/-- The pair of states that section 8 names: in every column eight 8s sum to 32, which is 0 modulo 16, as eight 0s do. -/
theorem exists_ne_mixColumns_eq : ∃ S T : NibState, S ≠ T ∧ mixColumns S = mixColumns T := by
  refine ⟨Vector.replicate 64 8#4, Vector.replicate 64 0#4, ?_, ?_⟩
  · intro h
    have hfirst := congrArg (·[0]) h
    simp at hfirst
  · rw [mixColumns_replicate, mixColumns_replicate]
    rfl

theorem subNibbles_injective : Function.Injective subNibbles := by
  intro S T h
  apply Vector.ext
  intro i hi
  have hnibble : sbox S[i] = sbox T[i] := by rw [← subNibbles_get, h, subNibbles_get]
  exact sbox_bijective.injective hnibble

/-- The nibble at `i` is read back at its destination. -/
theorem permuteNibbles_injective : Function.Injective permuteNibbles := by
  intro S T h
  apply Vector.ext
  intro i hi
  have hdest := permuteNibbles_dest S ⟨i, hi⟩
  rw [h, permuteNibbles_dest] at hdest
  exact hdest.symm

theorem addConstant_injective (r : BitVec 4) : Function.Injective (addConstant r) := by
  intro S T h
  apply Vector.ext
  intro i hi
  have hnibble : (addConstant r S)[i] = (addConstant r T)[i] := by rw [h]
  rw [addConstant_get, addConstant_get] at hnibble
  split at hnibble
  · exact add_right_cancel hnibble
  · exact hnibble

/-- Settles O23: a layer each. -/
theorem onlyMixColumnsLosesInformation : Obligations.OnlyMixColumnsLosesInformation := by
  unfold Obligations.OnlyMixColumnsLosesInformation
  exact ⟨exists_ne_mixColumns_eq, fun S T =>
    ⟨@subNibbles_injective S T, @permuteNibbles_injective S T, fun r => @addConstant_injective r S T⟩⟩

end Sys2Proof.Machine
end

section
/-! Operations placed for the next step, and rows out of their turn (log entries 6, 7, 12 and 15). -/

namespace Sys2Proof.Machine

theorem withFetchWord_of_code {s : State} {nbits w : Nat} {c : Code} (h : tableCode nbits w = some c) :
    s.withFetchWord nbits w = s.placeCode c := by
  simp only [State.withFetchWord, h]

theorem decodeTableWord_of_code {nbits w : Nat} {c : Code} (h : tableCode nbits w = some c) :
    decodeTableWord nbits w = some (decode c) := by
  simp only [decodeTableWord, h, Option.map_some]

/-- The placed word is the next act of a core that is ready for it. -/
theorem step_placeCode_command (s : State) (v : Command) :
    step (s.placeCode (.command v)) = exec (decodeCommand v) { s with busy := false } :=
  step_word (s.placeCode (.command v)) v s.host rfl rfl

/-- The sequencer runs at the placed stage, and takes the host's `wait` with its layer. -/
theorem step_placeCode_stage (s : State) (v : BitVec 2) :
    step (s.placeCode (.stage v)) = exec (decodeStage v) { s with busy := true, stage := v } :=
  step_busy_wait (s.placeCode (.stage v)) s.host rfl rfl

/-- Settles O7: each kind of code is placed where its step takes it. -/
theorem placedBitsAreRunNext : Obligations.PlacedBitsAreRunNext := by
  unfold Obligations.PlacedBitsAreRunNext
  intro s nbits w c hc
  rw [withFetchWord_of_code hc, decodeTableWord_of_code hc]
  cases c with
  | command v => exact ⟨_, step_placeCode_command s v, rfl, by simp⟩
  | stage v => exact ⟨_, step_placeCode_stage s v, rfl, by simp⟩

theorem microStep_idle (layer : NibState → NibState) {s : State} (hb : s.busy = false) :
    s.microStep layer = { s with S := layer s.S } :=
  advance_idle { s with S := layer s.S } hb

theorem execStatus_busy {s : State} (hb : s.busy = true) : execStatus s = .next s := by
  simp [execStatus, hb]

/-- A command is not accepted while the sequencer runs (R159). -/
theorem exec_decodeCommand_busy (w : Command) {s : State} (hb : s.busy = true) : exec (decodeCommand w) s = .next s := by
  have hserve := fun f => serve_busy s f hb
  obtain ⟨-, e⟩ | ⟨d, -, e⟩ | ⟨-, e⟩ | ⟨i, -, e⟩ | ⟨-, e⟩ | ⟨-, e⟩ := decodeCommand_cases w
  all_goals rw [e]
  · exact hserve startCommand
  · exact hserve (absorbCommand d)
  · exact hserve finalCommand
  · exact hserve (squeezeCommand i)
  · exact execStatus_busy hb
  · exact hserve fun t => t.raiseFault .illegalCmd

/-- Settles O19: without a running sequencer a layer row's advance does nothing, and with one no word is accepted. -/
theorem rowsOutsideTheirTurn : Obligations.RowsOutsideTheirTurn := by
  unfold Obligations.RowsOutsideTheirTurn
  refine ⟨fun s hb => ?_, fun s w => exec_decodeCommand_busy w⟩
  have hlayer (layer : NibState → NibState) :
      (.next (s.microStep layer) : Result) = .next { s with S := layer s.S } := by rw [microStep_idle layer hb]
  exact ⟨hlayer subNibbles, hlayer permuteNibbles, hlayer mixColumns, hlayer (addConstant s.rnd)⟩

end Sys2Proof.Machine
end

section
/-! The level of the core (log entry 1): no operation writes it. -/

namespace Sys2Proof.Machine

@[simp] theorem closeBlock_level (s : State) (final : Bool) : (s.closeBlock final).level = s.level := by
  cases hl : s.level with
  | command => rw [closeBlock_command s final hl, State.respond_level, hl]
  | micro => rw [closeBlock_micro s final hl, hl]

@[simp] theorem advance_level (s : State) : s.advance.level = s.level := by
  cases hb : s.busy with
  | false => rw [advance_idle s hb]
  | true =>
    by_cases hv : s.stage = 3#2
    · by_cases hr : s.rnd = 15#4
      · rw [advance_last s hb hv hr, State.respond_level]
      · rw [advance_round s hb hv hr]
    · rw [advance_stage s hb hv]

theorem microStep_level (s : State) (layer : NibState → NibState) : (s.microStep layer).level = s.level := advance_level _

theorem absorbCommand_level (d : Byte) (s : State) : (absorbCommand d s).level = s.level := by
  by_cases hp : s.phase = .absorb
  · by_cases hpos : s.pos = 30#5
    · rw [absorbCommand_close d s hp hpos, closeBlock_level]
    · rw [absorbCommand_open d s hp hpos, State.respond_level]
  · rw [absorbCommand_fault d s hp, State.raiseFault_level]

theorem finalCommand_level (s : State) : (finalCommand s).level = s.level := by
  by_cases hp : s.phase = .absorb
  · rw [finalCommand_absorb s hp, closeBlock_level]
  · rw [finalCommand_fault s hp, State.raiseFault_level]

theorem squeezeCommand_level (i : BitVec 5) (s : State) : (squeezeCommand i s).level = s.level := by
  by_cases hp : s.phase = .done
  · rw [squeezeCommand_done i s hp, State.respond_level]
  · rw [squeezeCommand_fault i s hp, State.raiseFault_level]

theorem level_of_next_eq {s t u : State} (hu : u.level = s.level) (h : (.next u : Result) = .next t) :
    t.level = s.level := by
  cases h
  exact hu

theorem serve_keeps_level {s t : State} {f : State → State} (hf : (f s).level = s.level) (h : s.serve f = .next t) :
    t.level = s.level := by
  obtain ⟨-, e⟩ | ⟨-, -, e⟩ | ⟨-, -, e⟩ := serve_cases s f <;> rw [e] at h
  · exact level_of_next_eq rfl h
  · exact level_of_next_eq (State.respond_level ..) h
  · exact level_of_next_eq hf h

theorem execStatus_keeps_level {s t : State} (h : execStatus s = .next t) : t.level = s.level := by
  cases hb : s.busy with
  | true => exact level_of_next_eq rfl ((execStatus_busy hb).symm.trans h)
  | false => exact level_of_next_eq (State.respond_level ..) ((execStatus_boundary s hb).symm.trans h)

theorem applyS_keeps_level {s t : State} {f : NibState → NibState} (h : s.applyS f = .next t) : t.level = s.level :=
  level_of_next_eq (u := { s with S := f s.S }) rfl h

theorem answer_keeps_level {s t : State} {v : FnValue} (h : s.answer v = .next t) : t.level = s.level :=
  level_of_next_eq (u := { s with value := v }) rfl h

theorem exec_keeps_level (i : Instr) {s t : State} (h : exec i s = .next t) : t.level = s.level := by
  cases i with
  | start => exact serve_keeps_level (f := startCommand) rfl h
  | absorb d => exact serve_keeps_level (absorbCommand_level d s) h
  | final => exact serve_keeps_level (finalCommand_level s) h
  | squeeze k => exact serve_keeps_level (squeezeCommand_level k s) h
  | status => exact execStatus_keeps_level h
  | illegal w => exact serve_keeps_level (f := fun u => u.raiseFault .illegalCmd) (State.raiseFault_level s .illegalCmd) h
  | subNibbles | permuteNibbles | mixColumns | addConstant => exact level_of_next_eq (microStep_level s _) h
  | round _ | permutation => exact applyS_keeps_level h
  | padInPlace pos => exact applyS_keeps_level (f := fun S => padInPlace S pos) h
  | absorbBlock p => exact applyS_keeps_level (f := fun S => absorbBlock S p) h
  | add16 _ _ | encodeByte _ | encodeMessage _ | pad _ | decodeByte _ | hash _ => exact answer_keeps_level h
  | hashScript _ | digest => exact level_of_next_eq (State.giveWords_level s _) h
  | reset => exact level_of_next_eq (State.resetEvent_level s) h

theorem step_keeps_level {s t : State} (h : step s = .next t) : t.level = s.level := by
  obtain ⟨-, l, e⟩ | ⟨-, l, e⟩ | ⟨-, w, l, e⟩ | ⟨-, m, l, e⟩ | ⟨-, l, e⟩ | ⟨l, e⟩ := step_cases s <;> rw [e] at h
  · exact level_of_next_eq (s := { s with host := l }) rfl h
  all_goals exact exec_keeps_level (s := { s with host := l }) _ h

/-- Settles O48: each operation writes other fields only, and so does taking the host's act before it. -/
theorem levelNeverChanges : Obligations.LevelNeverChanges := by
  unfold Obligations.LevelNeverChanges
  exact ⟨fun i _ _ => exec_keeps_level i, fun _ _ => step_keeps_level⟩

end Sys2Proof.Machine
end
